-- ==== Sys2Proof/Word.lean ====
section
/-!
DEFINITION. The words of the block (spec/00_scope.md R6, R7): every value is an unsigned bit vector, bit 0 the least
significant. The records of the access-control codec (42_access_codec.md R131) and the raw form in which an operation
reaches the block (30_encoding.md R60, R63, R68, R70).
-/

namespace Sys2Proof

/-- R6 `REG_DATA_BITS` = 8: the width of every register and of every byte on the bus. -/
abbrev Byte := BitVec 8

/-- R6 `REG_ADDR_BITS` = 6: a register address, 0x00 to 0x3F (R11). -/
abbrev RegAddr := BitVec 6

/-- R60: one frame as a word, the address byte in bits 15:8 and the data byte in bits 7:0. -/
abbrev FrameWord := BitVec 16

/-- R68: a codec transaction word `T`; bit 32 selects decode, bits 31:0 are `din`. -/
abbrev CodecWord := BitVec 33

/-- R70: the two frames of a read-modify-write helper as the opcode table writes them, the read frame in bits 31:16. -/
abbrev HelperWord := BitVec 32

/-- R131: a 3-bit access code, 0 to 7. -/
abbrev AccessCode := BitVec 3

/-- R131: a BlocksAccess value, one access code for each block of a sector; `b3` is the sector trailer's. -/
structure BlocksAccess where
  b0 : AccessCode
  b1 : AccessCode
  b2 : AccessCode
  b3 : AccessCode
deriving DecidableEq, Repr

/-- R133: the serialized form of a BlocksAccess value, four bytes in the order byte0, byte1, byte2, byte3 (R44 (d)). -/
structure AccessBytes where
  byte0 : Byte
  byte1 : Byte
  byte2 : Byte
  byte3 : Byte
deriving DecidableEq, Repr

/-- R69, R98, R99: which read-modify-write helper the host runs. The two have the same bits in the opcode table, so the
bits alone do not tell them apart: the host knows which one it runs (notes/assumptions/6.md). -/
inductive Helper where
  | setBits
  | clrBits
deriving DecidableEq, Repr

/-- The raw form of one operation of the opcode table, as the host presents it.
`bus`: the bytes the host shifts out in one exchange, address byte first (R42, R44 (a)); any length can be presented (R63).
`codec`: a codec transaction word (R68).
`helper`: the two frames of SETBITS or CLRBITS as one 32-bit word (R70), with the helper the host runs. -/
inductive Transaction where
  | bus (bytes : List Byte)
  | codec (t : CodecWord)
  | helper (h : Helper) (w : HelperWord)
deriving DecidableEq, Repr

end Sys2Proof
end

