-- ==== Sys2Proof/Config.lean ====
section
/-!
DEFINITION. The parameters of spec/00_scope.md R6 under their own names, the register map of 10_state.md R12, and the free
values: what the spec leaves to a draw (R8 `UNSPEC_N`, `UNSPEC_FIFO`; R119 the moment of `CRC.COMPLETE`). A free value is an
`opaque` constant without a body, so that no proof can see it.
-/

namespace Sys2Proof.Config

/-! Register addresses (R6, R12). -/

def addrCommandReg : RegAddr := 0x01
def addrDivIrqReg : RegAddr := 0x05
def addrErrorReg : RegAddr := 0x06
def addrFifoDataReg : RegAddr := 0x09
def addrFifoLevelReg : RegAddr := 0x0A
def addrCrcResultRegM : RegAddr := 0x21
def addrCrcResultRegL : RegAddr := 0x22

/-- R80: the seven addresses that belong to the block. -/
def inScopeAddrs : List RegAddr :=
  [addrCommandReg, addrDivIrqReg, addrErrorReg, addrFifoDataReg, addrFifoLevelReg, addrCrcResultRegM, addrCrcResultRegL]

/-- R12, R19: the eleven registers the source names and this block does not own: ComIEnReg, ComIrqReg, Status2Reg,
ControlReg, BitFramingReg, TxControlReg, RFCfgReg, TModeReg, TPrescalerReg, TReloadRegH, TReloadRegL. -/
def outOfScopeAddrs : List RegAddr :=
  [0x02, 0x04, 0x08, 0x0C, 0x0D, 0x14, 0x26, 0x2A, 0x2B, 0x2C, 0x2D]

/-! The host's budget is the source's own and no parameter of the block. -/

/-- R6, R116: the host's budget of polls of the done flag. -/
def crcPollBudget : Nat := 255

/-! The parameters. R6 asks for named parameters with a default, so that a claim can name the value it assumes; a state
carries them in `State.params`, which no step writes (notes/assumptions/2.md). -/

/-- R6 `CRC_FN`, R110, D10: which checksum function the engine computes. `crcA` is the default (R111); `other n` is any
other total function of the byte sequence, uninterpreted. -/
inductive CrcFn where
  | crcA
  | other (n : Nat)
deriving DecidableEq, Repr

/-- R6 `ACC_BIT_ORDER`, R131, D20: which bit of a 3-bit access code is bit-position `p`. `c1High` is the default
(`C(p, code) = code[3 - p]`); `c1Low` is the opposite choice (`C(p, code) = code[p - 1]`). -/
inductive AccBitOrder where
  | c1High
  | c1Low
deriving DecidableEq, Repr

/-- R6 `DIVIRQ_WRITE_RULE`, D5, U8: how a write of DivIrqReg treats the CRC bit. `w0c` is the default (a written 0 clears,
a written 1 leaves); under `set2` bit 7 of the written byte selects set or clear of the bits written as 1. -/
inductive DivIrqWriteRule where
  | w0c
  | set2
deriving DecidableEq, Repr

/-- The byte with one bit set: how R6 writes a mask that selects a single bit. -/
def bitMask (b : Fin 8) : Byte := 1#8 <<< b.val

/-- The parameters a model may re-instantiate (R6; 92_eei_decisions.md, last paragraph; U7, U8, U15 to U18). A mask of R6
that selects one bit is carried as the number of that bit, so that no value of the field stands for none or for several. -/
structure Parameters where
  /-- `FIFO_CAPACITY` (U17): bytes the FIFO holds. -/
  fifoCapacity : Nat
  /-- `CMD_IDLE` (D3): command code "idle". -/
  cmdIdle : BitVec 4
  /-- `CMD_CALCCRC` (D3): command code "CRC-calculate". -/
  cmdCalcCrc : BitVec 4
  /-- `CMD_FIELD_MASK` (D3): bits of CommandReg that hold the command code, unshifted. -/
  cmdFieldMask : Byte
  /-- `DIVIRQ_CRC_MASK` (D4): the bit of DivIrqReg that is the CRC-done flag. -/
  divIrqCrcBit : Fin 8
  /-- `FIFO_FLUSH_MASK` (D6): the bit of FIFOLevelReg whose write as 1 flushes the FIFO. -/
  fifoFlushBit : Fin 8
  /-- `FIFO_LEVEL_MASK` (D7): bits of FIFOLevelReg that read as the byte count, unshifted. -/
  fifoLevelMask : Byte
  /-- `ERR_BUFOVFL_MASK` (D8): the bit of ErrorReg that is the buffer-overflow flag. -/
  errBufOvflBit : Fin 8
  /-- `CRC_FN` (D10). -/
  crcFn : CrcFn
  /-- `ACC_BIT_ORDER` (D20). -/
  accBitOrder : AccBitOrder
  /-- `DIVIRQ_WRITE_RULE` (D5). -/
  divIrqWriteRule : DivIrqWriteRule
  /-- `CRC_SELF_TERMINATES` (D12): whether `CRC.COMPLETE` drains the FIFO and returns the command field to idle. -/
  crcSelfTerminates : Bool
deriving DecidableEq, Repr

/-- R6 `DIVIRQ_CRC_MASK`. -/
def Parameters.divIrqCrcMask (p : Parameters) : Byte := bitMask p.divIrqCrcBit

/-- R6 `FIFO_FLUSH_MASK`. -/
def Parameters.fifoFlushMask (p : Parameters) : Byte := bitMask p.fifoFlushBit

/-- R6 `ERR_BUFOVFL_MASK`. -/
def Parameters.errBufOvflMask (p : Parameters) : Byte := bitMask p.errBufOvflBit

/-- The defaults of R6, for which every rule of the spec is written. -/
def Parameters.defaults : Parameters :=
  { fifoCapacity := 16
    cmdIdle := 0x0
    cmdCalcCrc := 0x3
    cmdFieldMask := 0x0F
    divIrqCrcBit := 2
    fifoFlushBit := 7
    fifoLevelMask := 0x7F
    errBufOvflBit := 4
    crcFn := .crcA
    accBitOrder := .c1High
    divIrqWriteRule := .w0c
    crcSelfTerminates := true }

/-! Free values (notes/assumptions/3.md). Each is applied to the counter `State.draws`, which every use advances. -/

/-- R8 `UNSPEC_8` (and, masked, `UNSPEC_4`, `UNSPEC_1`): reply bytes and unowned bits (U1, U2, U4, U6, U12). -/
opaque freeByte : Nat → Byte

/-- R8 `UNSPEC_16`: the result of a poisoned completion (U5). -/
opaque freeResult : Nat → BitVec 16

/-- R8 `UNSPEC_FIFO`: how many bytes the drawn FIFO holds, 0 to `FIFO_CAPACITY` (U5, U13). -/
opaque freeFifoLength (capacity : Nat) : Nat → Fin (capacity + 1)

/-- R8 `UNSPEC_FIFO`: the bytes of the drawn FIFO, by position (U5, U13). -/
opaque freeFifoByte : Nat → Nat → Byte

/-- R119, D15: how many host frames pass after a CRC-calculate command before `CRC.COMPLETE`; finite, without any bound. -/
opaque engineDelay : Nat → Nat

/-- R110: the checksum functions other than `CRC_A`; each is a function of the byte sequence alone. -/
opaque otherCrcFn : Nat → List Byte → BitVec 16

end Sys2Proof.Config
end

