-- ==== Sys2Proof/Syntax.lean ====
section
/-!
DEFINITION. The operations of spec/opcode_table.json, one constructor a row (30_encoding.md R65, R64, R68, R70). Operands are
the fields of the row; `x` is a field the block ignores (the dummy byte of a read frame, R42 and U23, or `T[31:12]` of
ACC.ENC, R68), kept so that no bit of an encoding is dropped.
-/

namespace Sys2Proof

/-- One operation the host can present to the block. -/
inductive Instr where
  /-- CMD.IDLE, R112. -/
  | cmdIdle
  /-- CMD.CALCCRC, R113. -/
  | cmdCalcCrc
  /-- WR.CommandReg, R82. -/
  | wrCommandReg (d : Byte)
  /-- RD.CommandReg, R83. -/
  | rdCommandReg (x : Byte)
  /-- WR.DivIrqReg, R84. -/
  | wrDivIrqReg (d : Byte)
  /-- RD.DivIrqReg, R85. -/
  | rdDivIrqReg (x : Byte)
  /-- WR.ErrorReg, R86. -/
  | wrErrorReg (d : Byte)
  /-- RD.ErrorReg, R87. -/
  | rdErrorReg (x : Byte)
  /-- WR.FIFODataReg, R88. -/
  | wrFifoDataReg (d : Byte)
  /-- RD.FIFODataReg, R89. -/
  | rdFifoDataReg (x : Byte)
  /-- WR.FIFOLevelReg, R90. -/
  | wrFifoLevelReg (d : Byte)
  /-- RD.FIFOLevelReg, R91. -/
  | rdFifoLevelReg (x : Byte)
  /-- WR.CRCResultRegM, R92. -/
  | wrCrcResultRegM (d : Byte)
  /-- RD.CRCResultRegM, R93. -/
  | rdCrcResultRegM (x : Byte)
  /-- WR.CRCResultRegL, R94. -/
  | wrCrcResultRegL (d : Byte)
  /-- RD.CRCResultRegL, R95. -/
  | rdCrcResultRegL (x : Byte)
  /-- WR.OOS, R96: a write of an address the block does not own. -/
  | wrOos (a : RegAddr) (d : Byte)
  /-- RD.OOS, R97: a read of an address the block does not own. -/
  | rdOos (a : RegAddr) (x : Byte)
  /-- RSVD.FRAME, R62: a frame whose address byte has bit 0 set; `rd` is its bit 15. -/
  | rsvdFrame (rd : Bool) (a : RegAddr) (d : Byte)
  /-- ACC.ENC, R133. -/
  | accEnc (b0 b1 b2 b3 : AccessCode) (x : BitVec 20)
  /-- ACC.DEC, R134. -/
  | accDec (byte0 byte1 byte2 byte3 : Byte)
  /-- SETBITS, R98; `x` is the dummy byte of its read frame. -/
  | setBits (a : RegAddr) (x mask : Byte)
  /-- CLRBITS, R99; `x` is the dummy byte of its read frame. -/
  | clrBits (a : RegAddr) (x mask : Byte)
deriving DecidableEq, Repr

end Sys2Proof
end

