-- ==== Sys2Proof/WellFormed.lean ====
section
/-!
DEFINITION. Which operation terms stand for an encoding of their own row (30_encoding.md R70: where two rows match a word the
higher priority wins). A command byte that is a command's own belongs to the CMD row, not to WR.CommandReg; an address the
block owns belongs to that register's row, not to WR.OOS or RD.OOS. The words of the two commands depend on the parameters
`CMD_IDLE`, `CMD_CALCCRC` and `CMD_FIELD_MASK` (the table's notes), so well-formedness does. Operand widths are in the types.
-/

namespace Sys2Proof

/-- The byte that carries a command code in a write of CommandReg, bits 7:4 zero (R64). -/
def commandByte (code : BitVec 4) : Byte := code.setWidth 8

/-- R64: whether a data byte is the command of `code`: no bit outside the command field, and the field holds the code. -/
def isCommand (p : Config.Parameters) (code : BitVec 4) (d : Byte) : Bool :=
  d &&& ~~~p.cmdFieldMask == 0 && d &&& p.cmdFieldMask == commandByte code

/-- R80: whether the block owns the register at `a`. -/
def isInScope (a : RegAddr) : Bool := Config.inScopeAddrs.contains a

/-- Whether the term is an encoding of its own row of the opcode table, under the parameters `p`. -/
def Instr.wellFormed (p : Config.Parameters) : Instr → Bool
  | .cmdIdle => isCommand p p.cmdIdle (commandByte p.cmdIdle)
  | .cmdCalcCrc => isCommand p p.cmdCalcCrc (commandByte p.cmdCalcCrc) && p.cmdCalcCrc != p.cmdIdle
  | .wrCommandReg d => !isCommand p p.cmdIdle d && !isCommand p p.cmdCalcCrc d
  | .rdCommandReg _ => true
  | .wrDivIrqReg _ => true
  | .rdDivIrqReg _ => true
  | .wrErrorReg _ => true
  | .rdErrorReg _ => true
  | .wrFifoDataReg _ => true
  | .rdFifoDataReg _ => true
  | .wrFifoLevelReg _ => true
  | .rdFifoLevelReg _ => true
  | .wrCrcResultRegM _ => true
  | .rdCrcResultRegM _ => true
  | .wrCrcResultRegL _ => true
  | .rdCrcResultRegL _ => true
  | .wrOos a _ => !isInScope a
  | .rdOos a _ => !isInScope a
  | .rsvdFrame _ _ _ => true
  | .accEnc _ _ _ _ _ => true
  | .accDec _ _ _ _ => true
  | .setBits _ _ _ => true
  | .clrBits _ _ _ => true

end Sys2Proof
end

