-- ==== Sys2Proof/Decode.lean ====
section
/-!
DEFINITION. The decoder and the encoder of spec/30_encoding.md. Decoding is total on every transaction: a two-byte exchange
always decodes (R66: every 16-bit word belongs to a row), every codec word decodes (R68), and what has no row is rejected by
name. The encoder is written from the same tables. Both take the parameters of R6, on which the words of the two commands
depend. Below them stand the frame rows of spec/opcode_table.json as data.
-/

namespace Sys2Proof

/-- What the decoder rejects, by name. -/
inductive DecodeError where
  /-- R63: the exchange is not 2 bytes each way. -/
  | frameLength (n : Nat)
  /-- R70: the 32-bit word is not a read frame followed by a write frame of the same register. -/
  | notAHelper (w : HelperWord)
deriving DecidableEq, Repr

/-! The fields of a frame word (R60, R61). -/

/-- `W[15]`: 0 write, 1 read. -/
def frameIsRead (w : FrameWord) : Bool := w.getLsbD 15

/-- `W[14:9]`: the register address. -/
def frameAddr (w : FrameWord) : RegAddr := w.extractLsb' 9 6

/-- `W[8]`: bit 0 of the address byte, 0 in every frame the source's encoding can produce (R62). -/
def frameReservedBit (w : FrameWord) : Bool := w.getLsbD 8

/-- `W[7:0]`: the data byte of a write, or the ignored byte of a read. -/
def frameData (w : FrameWord) : Byte := w.extractLsb' 0 8

/-- R44 (a): the frame word of the two bytes of an exchange, address byte first. -/
def frameOfBytes (addrByte dataByte : Byte) : FrameWord := addrByte ++ dataByte

/-- R64: the second level of decoding, for a write of CommandReg. -/
def decodeCommand (p : Config.Parameters) (d : Byte) : Instr :=
  if isCommand p p.cmdIdle d then .cmdIdle
  else if isCommand p p.cmdCalcCrc d then .cmdCalcCrc
  else .wrCommandReg d

/-- R65: the operation of a write frame. -/
def decodeWrite (p : Config.Parameters) (a : RegAddr) (d : Byte) : Instr :=
  if a = Config.addrCommandReg then decodeCommand p d
  else if a = Config.addrDivIrqReg then .wrDivIrqReg d
  else if a = Config.addrErrorReg then .wrErrorReg d
  else if a = Config.addrFifoDataReg then .wrFifoDataReg d
  else if a = Config.addrFifoLevelReg then .wrFifoLevelReg d
  else if a = Config.addrCrcResultRegM then .wrCrcResultRegM d
  else if a = Config.addrCrcResultRegL then .wrCrcResultRegL d
  else .wrOos a d

/-- R65: the operation of a read frame. -/
def decodeRead (a : RegAddr) (x : Byte) : Instr :=
  if a = Config.addrCommandReg then .rdCommandReg x
  else if a = Config.addrDivIrqReg then .rdDivIrqReg x
  else if a = Config.addrErrorReg then .rdErrorReg x
  else if a = Config.addrFifoDataReg then .rdFifoDataReg x
  else if a = Config.addrFifoLevelReg then .rdFifoLevelReg x
  else if a = Config.addrCrcResultRegM then .rdCrcResultRegM x
  else if a = Config.addrCrcResultRegL then .rdCrcResultRegL x
  else .rdOos a x

/-- R66: the row of a 16-bit frame word; RSVD.FRAME comes first (R70). -/
def decodeFrame (p : Config.Parameters) (w : FrameWord) : Instr :=
  if frameReservedBit w then .rsvdFrame (frameIsRead w) (frameAddr w) (frameData w)
  else if frameIsRead w then decodeRead (frameAddr w) (frameData w)
  else decodeWrite p (frameAddr w) (frameData w)

/-- R68: the codec transaction of a word `T`. -/
def decodeCodec (t : CodecWord) : Instr :=
  if t.getLsbD 32 then
    .accDec (t.extractLsb' 0 8) (t.extractLsb' 8 8) (t.extractLsb' 16 8) (t.extractLsb' 24 8)
  else
    .accEnc (t.extractLsb' 0 3) (t.extractLsb' 3 3) (t.extractLsb' 6 3) (t.extractLsb' 9 3) (t.extractLsb' 12 20)

/-- R70, R98, R99: whether a 32-bit word is a read frame and then a write frame of the same register. -/
def isHelperWord (w : HelperWord) : Bool :=
  w.getLsbD 31 && !w.getLsbD 24 && !w.getLsbD 15 && !w.getLsbD 8 && w.extractLsb' 25 6 == w.extractLsb' 9 6

/-- The helper a 32-bit word stands for. The data field is the byte written when the register reads 0x00 (SETBITS: the mask)
or 0xFF (CLRBITS: the complement of the mask); notes/assumptions/6.md. -/
def decodeHelper (h : Helper) (w : HelperWord) : Except DecodeError Instr :=
  if isHelperWord w then
    match h with
    | .setBits => .ok (.setBits (w.extractLsb' 25 6) (w.extractLsb' 16 8) (w.extractLsb' 0 8))
    | .clrBits => .ok (.clrBits (w.extractLsb' 25 6) (w.extractLsb' 16 8) (~~~(w.extractLsb' 0 8)))
  else .error (.notAHelper w)

/-- The operation a transaction stands for under the parameters `p`, or the name of why it has none. -/
def decode (p : Config.Parameters) : Transaction → Except DecodeError Instr
  | .bus [addrByte, dataByte] => .ok (decodeFrame p (frameOfBytes addrByte dataByte))
  | .bus bytes => .error (.frameLength bytes.length)
  | .codec t => .ok (decodeCodec t)
  | .helper h w => decodeHelper h w

/-! The encoder. -/

/-- R61: the address byte of a write, `(addr << 1) & 0x7E`, for an address the software computed (R11: it may be wider). -/
def writeAddrByte (addr : Nat) : Byte := BitVec.ofNat 8 ((addr <<< 1) &&& 0x7E)

/-- R61: the address byte of a read, `((addr << 1) & 0x7E) | 0x80`. -/
def readAddrByte (addr : Nat) : Byte := BitVec.ofNat 8 (((addr <<< 1) &&& 0x7E) ||| 0x80)

/-- R43: the frame of `MemWrite(a, 1, d)`. -/
def writeFrame (a : RegAddr) (d : Byte) : Transaction := .bus [writeAddrByte a.toNat, d]

/-- R43: the frame of `MemRead(a, 1)` with dummy byte `x`; the driver sends 0x00 (R42). -/
def readFrame (a : RegAddr) (x : Byte) : Transaction := .bus [readAddrByte a.toNat, x]

/-- R62: a frame whose address byte has bit 0 set. -/
def reservedFrame (rd : Bool) (a : RegAddr) (d : Byte) : Transaction :=
  .bus [BitVec.ofBool rd ++ a ++ 1#1, d]

/-- R70: the 32-bit word of a helper, the pattern `1aaaaaa0xxxxxxxx0aaaaaa0dddddddd`. -/
def helperWord (a : RegAddr) (x d : Byte) : HelperWord :=
  1#1 ++ a ++ 0#1 ++ x ++ 0#1 ++ a ++ 0#1 ++ d

/-- R68: the word of ACC.ENC. -/
def encodeAccEnc (b0 b1 b2 b3 : AccessCode) (x : BitVec 20) : CodecWord :=
  0#1 ++ x ++ b3 ++ b2 ++ b1 ++ b0

/-- R68: the word of ACC.DEC. -/
def encodeAccDec (byte0 byte1 byte2 byte3 : Byte) : CodecWord :=
  1#1 ++ byte3 ++ byte2 ++ byte1 ++ byte0

/-- The transaction of an operation. -/
def encode (p : Config.Parameters) : Instr → Transaction
  | .cmdIdle => writeFrame Config.addrCommandReg (commandByte p.cmdIdle)
  | .cmdCalcCrc => writeFrame Config.addrCommandReg (commandByte p.cmdCalcCrc)
  | .wrCommandReg d => writeFrame Config.addrCommandReg d
  | .rdCommandReg x => readFrame Config.addrCommandReg x
  | .wrDivIrqReg d => writeFrame Config.addrDivIrqReg d
  | .rdDivIrqReg x => readFrame Config.addrDivIrqReg x
  | .wrErrorReg d => writeFrame Config.addrErrorReg d
  | .rdErrorReg x => readFrame Config.addrErrorReg x
  | .wrFifoDataReg d => writeFrame Config.addrFifoDataReg d
  | .rdFifoDataReg x => readFrame Config.addrFifoDataReg x
  | .wrFifoLevelReg d => writeFrame Config.addrFifoLevelReg d
  | .rdFifoLevelReg x => readFrame Config.addrFifoLevelReg x
  | .wrCrcResultRegM d => writeFrame Config.addrCrcResultRegM d
  | .rdCrcResultRegM x => readFrame Config.addrCrcResultRegM x
  | .wrCrcResultRegL d => writeFrame Config.addrCrcResultRegL d
  | .rdCrcResultRegL x => readFrame Config.addrCrcResultRegL x
  | .wrOos a d => writeFrame a d
  | .rdOos a x => readFrame a x
  | .rsvdFrame rd a d => reservedFrame rd a d
  | .accEnc b0 b1 b2 b3 x => .codec (encodeAccEnc b0 b1 b2 b3 x)
  | .accDec p q r s => .codec (encodeAccDec p q r s)
  | .setBits a x mask => .helper .setBits (helperWord a x mask)
  | .clrBits a x mask => .helper .clrBits (helperWord a x (~~~mask))

/-! Words as the opcode table numbers them. -/

/-- The bytes of a word of `n` bytes, most significant first: the order in which the bus carries them (R60). -/
def bytesOfWord : Nat → Nat → List Byte
  | 0, _ => []
  | n + 1, w => BitVec.ofNat 8 (w >>> (8 * n)) :: bytesOfWord n w

/-- The transaction of a word of the opcode table: 16 bits are a frame (R60), 32 bits a helper (R70), 33 bits, in whole bytes
40, a codec word (R68); any other width is an exchange of that many bytes. SETBITS and CLRBITS have the same bits in the table
and the same priority; the earlier row, SETBITS, is taken (notes/assumptions/6.md). -/
def transactionOfTableWord (nbits w : Nat) : Transaction :=
  if nbits = 32 then .helper .setBits (BitVec.ofNat 32 w)
  else if nbits = 33 ∨ (nbits = 40 ∧ w < 2 ^ 33) then .codec (BitVec.ofNat 33 w)
  else .bus (bytesOfWord (nbits / 8) w)

/-- The instruction the decoder reads from a word of the opcode table, which is written for the default parameters. -/
def decodeTableWord (nbits w : Nat) : Option Instr :=
  match decode Config.Parameters.defaults (transactionOfTableWord nbits w) with
  | .ok i => some i
  | .error _ => none

/-! The frame rows of spec/opcode_table.json, for the statement that the decoder follows the table (R70). -/

/-- One 16-bit row: its place in the table counted from 0, its match and mask over the frame word, its priority. -/
structure FrameRow where
  row : Nat
  value : FrameWord
  mask : FrameWord
  priority : Nat
deriving DecidableEq, Repr

/-- Whether a frame word matches a row. -/
def FrameRow.covers (r : FrameRow) (w : FrameWord) : Bool := w &&& r.mask == r.value

/-- The nineteen 16-bit rows of the table; the match of the first two carries the command's code (their notes). -/
def frameRows (p : Config.Parameters) : List FrameRow :=
  [⟨0, frameOfBytes 0x02 (commandByte p.cmdIdle), 0xFFFF, 3⟩, ⟨1, frameOfBytes 0x02 (commandByte p.cmdCalcCrc), 0xFFFF, 3⟩,
   ⟨2, 0x0200, 0xFF00, 2⟩, ⟨3, 0x8200, 0xFF00, 2⟩,
   ⟨4, 0x0A00, 0xFF00, 2⟩, ⟨5, 0x8A00, 0xFF00, 2⟩, ⟨6, 0x0C00, 0xFF00, 2⟩, ⟨7, 0x8C00, 0xFF00, 2⟩,
   ⟨8, 0x1200, 0xFF00, 2⟩, ⟨9, 0x9200, 0xFF00, 2⟩, ⟨10, 0x1400, 0xFF00, 2⟩, ⟨11, 0x9400, 0xFF00, 2⟩,
   ⟨12, 0x4200, 0xFF00, 2⟩, ⟨13, 0xC200, 0xFF00, 2⟩, ⟨14, 0x4400, 0xFF00, 2⟩, ⟨15, 0xC400, 0xFF00, 2⟩,
   ⟨16, 0x0000, 0x8100, 1⟩, ⟨17, 0x8000, 0x8100, 1⟩, ⟨18, 0x0100, 0x0100, 4⟩]

/-- The place of an operation's row in spec/opcode_table.json, counted from 0. -/
def Instr.tableRow : Instr → Nat
  | .cmdIdle => 0
  | .cmdCalcCrc => 1
  | .wrCommandReg _ => 2
  | .rdCommandReg _ => 3
  | .wrDivIrqReg _ => 4
  | .rdDivIrqReg _ => 5
  | .wrErrorReg _ => 6
  | .rdErrorReg _ => 7
  | .wrFifoDataReg _ => 8
  | .rdFifoDataReg _ => 9
  | .wrFifoLevelReg _ => 10
  | .rdFifoLevelReg _ => 11
  | .wrCrcResultRegM _ => 12
  | .rdCrcResultRegM _ => 13
  | .wrCrcResultRegL _ => 14
  | .rdCrcResultRegL _ => 15
  | .wrOos _ _ => 16
  | .rdOos _ _ => 17
  | .rsvdFrame _ _ _ => 18
  | .accEnc _ _ _ _ _ => 19
  | .accDec _ _ _ _ => 20
  | .setBits _ _ _ => 21
  | .clrBits _ _ _ => 22

end Sys2Proof
end

