-- ==== Sys2Proof/Machine/State.lean ====
section
/-!
DEFINITION. The state: the seven items the spec gives the block (10_state.md R10), and beside them what the model needs of the
host agent (R5, R25), of the engine's moment (R119) and of the draws (R8). All of it is plain data.
-/

namespace Sys2Proof.Machine

/-- Faults. The block raises none (60_exceptions.md R140). The names are those of R156 that a stricter model may use in place
of a value-returning rule; this model takes the value-returning rule of each, so no step answers one (safe: nothing stops). -/
inductive Fault where
  /-- R156, R88, U3: would be WR.FIFODataReg's on a full FIFO; not raised, the byte is dropped and `bufOvfl` set. Safe. -/
  | fifoOverflow
  /-- R156, R89, U4: would be RD.FIFODataReg's on an empty FIFO; not raised, the read returns a free byte. Safe. -/
  | fifoUnderflow
  /-- R156, R93, R95, U6: would be a result register's read before the first completion; not raised, a free byte. Safe. -/
  | unwrittenResult
deriving DecidableEq, Repr

/-- Refusals: the model gives the operation no meaning (R156). -/
inductive Refusal where
  /-- An instruction whose meaning is not written; no arm of `exec` answers it. Safe. -/
  | notModelled (mnemonic : String)
  /-- R62, R63: an address byte with bit 0 set (RSVD.FRAME), or an exchange that is not 2 bytes (the fetch). Safe. -/
  | reservedFrame
  /-- R82: WR.CommandReg with a byte that is neither command of the block. Safe. -/
  | reservedCommand (d : Byte)
  /-- R20, R96, R97: WR.OOS or RD.OOS at an address the source does not name. Safe. -/
  | reservedRegister (a : RegAddr)
  /-- R156, optional: WR.OOS or RD.OOS at a named register of another block. Not raised: the model takes R19's effect. Safe. -/
  | outOfScopeRegister (a : RegAddr)
  /-- R153: a transaction of a second host, or of another protocol interleaved with this host's. Safe. -/
  | concurrentHost
  /-- The model's own: a term WR.OOS or RD.OOS at an address the block owns, which is no encoding of that row; the decoder
  never gives it (R80). Safe. -/
  | notAnOosAddress (a : RegAddr)
  /-- The model's own: a 32-bit program word that is not the two frames of a helper (R70). Safe. -/
  | notAHelper (w : HelperWord)
deriving DecidableEq, Repr

/-- What the last frame returned to the host (R42, R81). -/
structure Reply where
  byte0 : Byte
  byte1 : Byte
deriving DecidableEq, Repr

/-- What the host's last pseudo-operation returned (R69, R116, R157). -/
inductive HostResult where
  /-- No POLL and no CRC16 has run. -/
  | nothing
  /-- POLL: whether the masked bits were seen set. -/
  | polled (ok : Bool)
  /-- CRC16: `(lsb, msb)`. -/
  | crc16 (lsb msb : Byte)
  /-- CRC16: the budget of polls ran out; a value of the host, no event of the hardware (R142). -/
  | protocolTimeout
deriving DecidableEq, Repr

/-- One operation of a host program (R25, R69). -/
inductive HostOp where
  /-- An operation of the opcode table, as raw bits. -/
  | transact (t : Transaction)
  /-- `POLL reg, #mask, #n -> ok` (R69). -/
  | poll (a : RegAddr) (mask : Byte) (n : Nat)
  /-- `CRC16 data -> (lsb, msb)` (R116). -/
  | crc16 (data : List Byte)
  /-- `<reset>`: the reset event, taken only where a program names it (R160). -/
  | reset
  /-- A transaction another host, or another protocol of this host, presents in between (R153). -/
  | foreign (t : Transaction)
deriving DecidableEq, Repr

structure State where
  /-- R10, R13: the command field, CommandReg bits 3:0. -/
  cmd : BitVec 4
  /-- R10, R14: the CRC-done flag. -/
  crcIrq : Bool
  /-- R10, R15: the buffer-overflow flag. -/
  bufOvfl : Bool
  /-- R10, R21: the FIFO, head first. -/
  fifo : List Byte
  /-- R10, R18: the last result; `none` is the spec's *unwritten*. -/
  crcResult : Option (BitVec 16)
  /-- R10, R22: the engine runs. -/
  crcBusy : Bool
  /-- R10, R22, R115: the coming result is unspecified. -/
  crcPoison : Bool
  /-- The model's own: how many more host frames pass before a running engine takes `CRC.COMPLETE` (R119); drawn at each start.
  Of no meaning while `crcBusy` is false. -/
  engineWait : Nat
  /-- The model's own: how many draws have been made (R8). -/
  draws : Nat
  /-- The parameters of R6; no step writes them. -/
  params : Config.Parameters
  /-- The host's: the reply of the last frame (R81). -/
  reply : Reply
  /-- The host's: `dout` of the last codec transaction (R68). -/
  codecOut : BitVec 32
  /-- The host's: what the last POLL or CRC16 returned. -/
  hostResult : HostResult
  /-- The host's program (R25). -/
  program : List HostOp
  /-- The host's index into its program (R25). -/
  hostIndex : Nat
deriving DecidableEq, Repr

/-- The machine after reset: the seven items as R29 gives them, the host at the start of an empty program (R25). The other
fields are the model's own (notes/assumptions/1.md, 2.md, 3.md, 4.md, 5.md). -/
def State.reset : State :=
  { cmd := Config.Parameters.defaults.cmdIdle
    crcIrq := false
    bufOvfl := false
    fifo := []
    crcResult := none
    crcBusy := false
    crcPoison := false
    engineWait := 0
    draws := 0
    params := Config.Parameters.defaults
    reply := { byte0 := 0, byte1 := 0 }
    codecOut := 0
    hostResult := .nothing
    program := []
    hostIndex := 0 }

end Sys2Proof.Machine
end

