-- ==== Sys2Proof/Machine/Codec.lean ====
section
/-!
DEFINITION. The access-control codec as two functions (42_access_codec.md R131 to R134) and the packing of its result word
(30_encoding.md R68). It has no state.
-/

namespace Sys2Proof.Machine

/-- R131: `C(p, code)` for bit-position `p` = 1, 2, 3. -/
def codeBit (order : Config.AccBitOrder) (p : Nat) (code : AccessCode) : Bool :=
  match order with
  | .c1High => code.getLsbD (3 - p)
  | .c1Low => code.getLsbD (p - 1)

/-- R132: `bits(p)`, block k's bit at position k of the nibble. -/
def positionBits (order : Config.AccBitOrder) (p : Nat) (v : BlocksAccess) : BitVec 4 :=
  BitVec.ofBool (codeBit order p v.b3) ++ BitVec.ofBool (codeBit order p v.b2)
    ++ BitVec.ofBool (codeBit order p v.b1) ++ BitVec.ofBool (codeBit order p v.b0)

/-- R133: a byte of two nibbles, `(hi << 4 & 0xF0) | (lo & 0x0F)`. -/
def nibbleByte (hi lo : BitVec 4) : Byte :=
  ((hi.setWidth 8 <<< 4) &&& 0xF0) ||| (lo.setWidth 8 &&& 0x0F)

/-- R133: encode. -/
def accEncode (order : Config.AccBitOrder) (v : BlocksAccess) : AccessBytes :=
  let byte0 := nibbleByte (~~~positionBits order 2 v) (~~~positionBits order 1 v)
  let byte1 := nibbleByte (positionBits order 1 v) (~~~positionBits order 3 v)
  let byte2 := nibbleByte (positionBits order 3 v) (positionBits order 2 v)
  { byte0 := byte0, byte1 := byte1, byte2 := byte2, byte3 := byte0 ^^^ byte1 ^^^ byte2 }

/-- R134: block `k`'s code from the three nibbles; the inverse of `codeBit`. -/
def blockCode (order : Config.AccBitOrder) (n1 n2 n3 : BitVec 4) (k : Nat) : AccessCode :=
  match order with
  | .c1High => BitVec.ofBool (n1.getLsbD k) ++ BitVec.ofBool (n2.getLsbD k) ++ BitVec.ofBool (n3.getLsbD k)
  | .c1Low => BitVec.ofBool (n3.getLsbD k) ++ BitVec.ofBool (n2.getLsbD k) ++ BitVec.ofBool (n1.getLsbD k)

/-- R134: decode; bytes 0 and 3 and the low nibble of byte 1 are not read (R136). -/
def accDecode (order : Config.AccBitOrder) (y : AccessBytes) : BlocksAccess :=
  let n1 := y.byte1.extractLsb' 4 4
  let n2 := y.byte2.extractLsb' 0 4
  let n3 := y.byte2.extractLsb' 4 4
  { b0 := blockCode order n1 n2 n3 0
    b1 := blockCode order n1 n2 n3 1
    b2 := blockCode order n1 n2 n3 2
    b3 := blockCode order n1 n2 n3 3 }

/-- R68: `dout` of ACC.ENC, byte0 in bits 7:0. -/
def packBytes (y : AccessBytes) : BitVec 32 := y.byte3 ++ y.byte2 ++ y.byte1 ++ y.byte0

/-- R68: `dout` of ACC.DEC, B0 in bits 2:0, bits 31:12 zero. -/
def packCodes (v : BlocksAccess) : BitVec 32 := 0#20 ++ v.b3 ++ v.b2 ++ v.b1 ++ v.b0

end Sys2Proof.Machine
end

