-- ==== Sys2Proof/Machine/Crc.lean ====
section
/-!
DEFINITION. The checksum function `CRC_FN` (41_crc_engine.md R110) and its default instantiation `CRC_A` (R111), which the spec
supplies from general knowledge (G1, D10).
-/

namespace Sys2Proof.Machine

/-- R111: one shift of the loop. -/
def crcAShift (crc : BitVec 16) : BitVec 16 :=
  if crc.getLsbD 0 then (crc >>> 1) ^^^ 0x8408#16 else crc >>> 1

/-- R111: `n` shifts. -/
def crcAShifts : Nat → BitVec 16 → BitVec 16
  | 0, crc => crc
  | n + 1, crc => crcAShifts n (crcAShift crc)

/-- R111: one byte, its bits consumed least significant first. -/
def crcAByte (crc : BitVec 16) (b : Byte) : BitVec 16 := crcAShifts 8 (crc ^^^ b.setWidth 16)

/-- R111: `CRC_A`. -/
def crcA (s : List Byte) : BitVec 16 := s.foldl crcAByte 0x6363#16

/-- R111: the equivalent byte-at-a-time form of one byte. -/
def crcATableByte (crc : BitVec 16) (b : Byte) : BitVec 16 :=
  let t0 : Byte := b ^^^ crc.extractLsb' 0 8
  let t : BitVec 16 := (t0 ^^^ (t0 <<< 4)).setWidth 16
  (crc >>> 8) ^^^ (t <<< 8) ^^^ (t <<< 3) ^^^ (t >>> 4)

/-- R111: `CRC_A` by the byte-at-a-time form. -/
def crcATable (s : List Byte) : BitVec 16 := s.foldl crcATableByte 0x6363#16

/-- R110: the checksum a choice of `CRC_FN` gives a byte sequence. -/
def crcOf (f : Config.CrcFn) (s : List Byte) : BitVec 16 :=
  match f with
  | .crcA => crcA s
  | .other n => Config.otherCrcFn n s

end Sys2Proof.Machine
end

