-- ==== Sys2Proof/Machine/Flags.lean ====
section
/-!
DEFINITION. The two flags of 10_state.md R26 and the bytes in which the host reads them. There are no condition codes.
-/

namespace Sys2Proof.Machine

/-- A flag at the bit of its mask, every other bit 0. -/
def flagByte (mask : Byte) (flag : Bool) : Byte := if flag then mask else 0

/-- A read value: the bits of `mask` are the block's, every other bit is a draw (U2). -/
def ownBits (mask owned free : Byte) : Byte := (owned &&& mask) ||| (free &&& ~~~mask)

/-- R84 (`w0c`): a written 0 at the CRC bit clears the flag, a written 1 leaves it. U8 (`set2`): with a 1 at the CRC bit, bit 7
of the byte is the flag's new value; with a 0 there the flag is left. -/
def crcIrqAfterWrite (p : Config.Parameters) (d : Byte) (irq : Bool) : Bool :=
  match p.divIrqWriteRule with
  | .w0c => if d &&& p.divIrqCrcMask = 0 then false else irq
  | .set2 => if d &&& p.divIrqCrcMask = 0 then irq else d.getLsbD 7

end Sys2Proof.Machine
end

