-- ==== Sys2Proof/Machine/Ops.lean ====
section
/-!
DEFINITION. The named operations on the state: draws and replies (20_memory.md R42, 40_bus_access.md R81), the FIFO
(10_state.md R21), the engine (41_crc_engine.md R112 to R115, R119), the host's index (R25) and the reset event
(70_reset_and_hazards.md R160, R161). The block takes no exception and returns from none (60_exceptions.md R140, R147, R148),
so there is no operation for either.
-/

namespace Sys2Proof.Machine

/-- The outcome of an operation. -/
abbrev StepOutcome := Host.Outcome State Fault Refusal

/-- Runs `f` on the next state of `o`; a fault or a refusal stands. -/
def andThen (o : StepOutcome) (f : State → StepOutcome) : StepOutcome :=
  match o with
  | .next s => f s
  | .fault r => .fault r
  | .refused r => .refused r

/-! Draws and replies. Every frame uses two draws: reply byte 0 (U1), and the bits of reply byte 1 that the rule leaves
unspecified. -/

/-- The draw for the unspecified bits of reply byte 1 of the frame that is being answered. -/
def State.unspecByte (s : State) : Byte := Config.freeByte (s.draws + 1)

/-- R81: the reply of a frame, byte 0 a draw and byte 1 the value `v`. -/
def State.answer (s : State) (v : Byte) : State :=
  { s with reply := { byte0 := Config.freeByte s.draws, byte1 := v }, draws := s.draws + 2 }

/-- R81: the reply of a write frame, both bytes draws. -/
def State.answerWrite (s : State) : State := s.answer s.unspecByte

/-- R8 `UNSPEC_FIFO`: any sequence of 0 to `FIFO_CAPACITY` bytes. -/
def unspecFifo (capacity k : Nat) : List Byte :=
  (List.range (Config.freeFifoLength capacity k).val).map (Config.freeFifoByte k)

/-! The FIFO. -/

/-- R115: an access to the FIFO while the engine runs poisons it. -/
def State.poisonIfBusy (s : State) : State := { s with crcPoison := s.crcPoison || s.crcBusy }

/-- R88: append a byte, or drop it and set `bufOvfl` when the FIFO is full. -/
def State.pushByte (s : State) (d : Byte) : State :=
  if s.fifo.length = s.params.fifoCapacity then { s with bufOvfl := true } else { s with fifo := s.fifo ++ [d] }

/-- R89: the byte a read of the FIFO returns; a draw when it is empty. -/
def State.headByte (s : State) : Byte :=
  match s.fifo with
  | [] => s.unspecByte
  | b :: _ => b

/-- R89: remove the oldest byte; an empty FIFO stays empty. -/
def State.dropHead (s : State) : State := { s with fifo := s.fifo.tail }

/-- R90: empty the FIFO and clear `bufOvfl`. -/
def State.flushFifo (s : State) : State := { s with fifo := [], bufOvfl := false }

/-! The engine. -/

/-- R112: the idle command. A running engine is cancelled and leaves the FIFO unspecified. -/
def State.issueIdle (s : State) : State :=
  { s with
    fifo := if s.crcBusy then unspecFifo s.params.fifoCapacity s.draws else s.fifo
    cmd := s.params.cmdIdle
    crcBusy := false
    crcPoison := false
    engineWait := 0 }

/-- R113: the CRC-calculate command. It only starts the engine; the moment of the completion is drawn (R119). -/
def State.issueCalcCrc (s : State) : State :=
  { s with
    cmd := s.params.cmdCalcCrc
    crcBusy := true
    crcPoison := false
    engineWait := Config.engineDelay s.draws }

/-- R114: the result of a completion, unspecified when poisoned. -/
def State.completionResult (s : State) : BitVec 16 :=
  if s.crcPoison then Config.freeResult s.draws else crcOf s.params.crcFn s.fifo

/-- R114: the FIFO a completion leaves: unspecified when poisoned, else drained (`CRC_SELF_TERMINATES`, U7). -/
def State.completionFifo (s : State) : List Byte :=
  if s.crcPoison then unspecFifo s.params.fifoCapacity s.draws else if s.params.crcSelfTerminates then [] else s.fifo

/-- R114: `CRC.COMPLETE`, one indivisible step of the engine, enabled exactly when `crcBusy` (see `engineDue`). -/
def State.crcComplete (s : State) : State :=
  { s with
    crcResult := some s.completionResult
    fifo := s.completionFifo
    crcIrq := true
    crcBusy := false
    crcPoison := false
    cmd := if s.params.crcSelfTerminates then s.params.cmdIdle else s.cmd
    engineWait := 0
    draws := s.draws + 1 }

/-- R114, R119: whether the engine takes its step now: it runs and the drawn number of host frames has passed. -/
def State.engineDue (s : State) : Bool := s.crcBusy && s.engineWait == 0

/-- R119: one host operation passes. -/
def State.hostTurn (s : State) : State := { s with engineWait := s.engineWait - 1 }

/-- R47, R53: between two frames of one host operation the engine may complete; then the next frame passes. -/
def State.betweenFrames (s : State) : State :=
  (if s.engineDue then s.crcComplete else s).hostTurn

/-! The host and the reset line. -/

/-- R25: the host's index moves on by one. -/
def State.advance (s : State) : State := { s with hostIndex := s.hostIndex + 1 }

/-- What a POLL or a CRC16 hands to its caller. -/
def State.setHostResult (s : State) (r : HostResult) : State := { s with hostResult := r }

/-- R68: what a codec transaction hands to the host. -/
def State.setCodecOut (s : State) (v : BitVec 32) : State := { s with codecOut := v }

/-- R84: a write of DivIrqReg. -/
def State.writeDivIrq (s : State) (d : Byte) : State :=
  { s with crcIrq := crcIrqAfterWrite s.params d s.crcIrq }

/-- R160, R161: the reset event. Every item of the block takes its reset value; host, parameters and draws are not the
block's and stay. -/
def State.resetEvent (s : State) : State :=
  { s with
    cmd := s.params.cmdIdle
    crcIrq := false
    bufOvfl := false
    fifo := []
    crcResult := none
    crcBusy := false
    crcPoison := false
    engineWait := 0 }

end Sys2Proof.Machine
end

