-- ==== Sys2Proof/Machine/CodecUnit.lean ====
section
/-!
DEFINITION. The two codec transactions (42_access_codec.md R133, R134; 30_encoding.md R68). They read and write no state of
the block (R130); the host takes the result word.
-/

namespace Sys2Proof.Machine

/-- ACC.ENC (R133). -/
def execAccEnc (b0 b1 b2 b3 : AccessCode) (_x : BitVec 20) (s : State) : StepOutcome :=
  .next (s.setCodecOut (packBytes (accEncode s.params.accBitOrder { b0 := b0, b1 := b1, b2 := b2, b3 := b3 })))

/-- ACC.DEC (R134). -/
def execAccDec (byte0 byte1 byte2 byte3 : Byte) (s : State) : StepOutcome :=
  .next (s.setCodecOut
    (packCodes (accDecode s.params.accBitOrder { byte0 := byte0, byte1 := byte1, byte2 := byte2, byte3 := byte3 })))

end Sys2Proof.Machine
end

