-- ==== Sys2Proof/Machine/Operands.lean ====
section
/-!
DEFINITION. The operand forms. The one addressing mode is the 6-bit register address, used as it is (20_memory.md R43, R46);
addresses fall into three classes (R66), and the values read from the block's registers are composed here.
-/

namespace Sys2Proof.Machine

/-- R66: the classes of register addresses. -/
inductive AddrClass where
  /-- One of the block's seven registers (R80). -/
  | inScope
  /-- One of the eleven named registers of other blocks (R19). -/
  | outOfScope
  /-- An address the source does not name (R20). -/
  | unnamed
deriving DecidableEq, Repr

/-- R66: the class of an address. -/
def addrClass (a : RegAddr) : AddrClass :=
  if isInScope a then .inScope
  else if Config.outOfScopeAddrs.contains a then .outOfScope
  else .unnamed

/-- R83: the value of CommandReg, the bits outside the command field unspecified. -/
def State.commandValue (s : State) : Byte := ownBits s.params.cmdFieldMask (commandByte s.cmd) s.unspecByte

/-- R85: the value of DivIrqReg, every bit but the CRC-done flag unspecified. -/
def State.divIrqValue (s : State) : Byte :=
  ownBits s.params.divIrqCrcMask (flagByte s.params.divIrqCrcMask s.crcIrq) s.unspecByte

/-- R87: the value of ErrorReg, every bit but the buffer-overflow flag unspecified. -/
def State.errorValue (s : State) : Byte :=
  ownBits s.params.errBufOvflMask (flagByte s.params.errBufOvflMask s.bufOvfl) s.unspecByte

/-- R91: the value of FIFOLevelReg; the flush bit reads 0 (R17). DESIGN CHOICE, unsafe (notes/assumptions/2.md): a count that
does not fit the level bits, which the default capacity and mask rule out, reads as its bits under the mask. -/
def State.fifoLevelValue (s : State) : Byte :=
  BitVec.ofNat 8 s.fifo.length &&& s.params.fifoLevelMask &&& ~~~s.params.fifoFlushMask

/-- R93: the value of CRCResultRegM, a draw while the result is unwritten. -/
def State.resultHighValue (s : State) : Byte :=
  match s.crcResult with
  | none => s.unspecByte
  | some r => r.extractLsb' 8 8

/-- R95: the value of CRCResultRegL, a draw while the result is unwritten. -/
def State.resultLowValue (s : State) : Byte :=
  match s.crcResult with
  | none => s.unspecByte
  | some r => r.extractLsb' 0 8

end Sys2Proof.Machine
end

