-- ==== Sys2Proof/Machine/Command.lean ====
section
/-!
DEFINITION. CommandReg and the two commands (40_bus_access.md R82, R83; 41_crc_engine.md R112, R113).
-/

namespace Sys2Proof.Machine

/-- CMD.IDLE (R112). -/
def execCmdIdle (s : State) : StepOutcome := .next s.issueIdle.answerWrite

/-- CMD.CALCCRC (R113). -/
def execCmdCalcCrc (s : State) : StepOutcome := .next s.issueCalcCrc.answerWrite

/-- WR.CommandReg (R82): performs a command of the block, refuses every other byte. -/
def execWrCommandReg (d : Byte) (s : State) : StepOutcome :=
  if d &&& ~~~s.params.cmdFieldMask ≠ 0 then .refused (.reservedCommand d)
  else if d &&& s.params.cmdFieldMask = commandByte s.params.cmdIdle then .next s.issueIdle.answerWrite
  else if d &&& s.params.cmdFieldMask = commandByte s.params.cmdCalcCrc then .next s.issueCalcCrc.answerWrite
  else .refused (.reservedCommand d)

/-- RD.CommandReg (R83). -/
def execRdCommandReg (_x : Byte) (s : State) : StepOutcome := .next (s.answer s.commandValue)

end Sys2Proof.Machine
end

