-- ==== Sys2Proof/Machine/Fifo.lean ====
section
/-!
DEFINITION. FIFODataReg and FIFOLevelReg (40_bus_access.md R88 to R91).
-/

namespace Sys2Proof.Machine

/-- WR.FIFODataReg (R88). -/
def execWrFifoDataReg (d : Byte) (s : State) : StepOutcome := .next (s.poisonIfBusy.pushByte d).answerWrite

/-- RD.FIFODataReg (R89). -/
def execRdFifoDataReg (_x : Byte) (s : State) : StepOutcome := .next (s.poisonIfBusy.dropHead.answer s.headByte)

/-- WR.FIFOLevelReg (R90). -/
def execWrFifoLevelReg (d : Byte) (s : State) : StepOutcome :=
  if d &&& s.params.fifoFlushMask = 0 then .next s.answerWrite else .next s.poisonIfBusy.flushFifo.answerWrite

/-- RD.FIFOLevelReg (R91). -/
def execRdFifoLevelReg (_x : Byte) (s : State) : StepOutcome := .next (s.answer s.fifoLevelValue)

end Sys2Proof.Machine
end

