-- ==== Sys2Proof/Machine/OutOfScope.lean ====
section
/-!
DEFINITION. Frames that reach no register of the block (40_bus_access.md R96, R97; 30_encoding.md R62).
-/

namespace Sys2Proof.Machine

/-- WR.OOS (R96): no effect at a named register of another block (R19), refused at an unnamed address (R20). -/
def execWrOos (a : RegAddr) (_d : Byte) (s : State) : StepOutcome :=
  match addrClass a with
  | .outOfScope => .next s.answerWrite
  | .unnamed => .refused (.reservedRegister a)
  | .inScope => .refused (.notAnOosAddress a)

/-- RD.OOS (R97): an unspecified byte at a named register of another block, refused at an unnamed address. -/
def execRdOos (a : RegAddr) (_x : Byte) (s : State) : StepOutcome :=
  match addrClass a with
  | .outOfScope => .next (s.answer s.unspecByte)
  | .unnamed => .refused (.reservedRegister a)
  | .inScope => .refused (.notAnOosAddress a)

/-- RSVD.FRAME (R62): the spec reserves the frame and the model refuses it. -/
def execRsvdFrame (_rd : Bool) (_a : RegAddr) (_d : Byte) (_s : State) : StepOutcome := .refused .reservedFrame

end Sys2Proof.Machine
end

