-- ==== Sys2Proof/Machine/Result.lean ====
section
/-!
DEFINITION. CRCResultRegM and CRCResultRegL (40_bus_access.md R92 to R95).
-/

namespace Sys2Proof.Machine

/-- WR.CRCResultRegM (R92): the write is ignored. -/
def execWrCrcResultRegM (_d : Byte) (s : State) : StepOutcome := .next s.answerWrite

/-- RD.CRCResultRegM (R93). -/
def execRdCrcResultRegM (_x : Byte) (s : State) : StepOutcome := .next (s.answer s.resultHighValue)

/-- WR.CRCResultRegL (R94): the write is ignored. -/
def execWrCrcResultRegL (_d : Byte) (s : State) : StepOutcome := .next s.answerWrite

/-- RD.CRCResultRegL (R95). -/
def execRdCrcResultRegL (_x : Byte) (s : State) : StepOutcome := .next (s.answer s.resultLowValue)

end Sys2Proof.Machine
end

