-- ==== Sys2Proof/Machine/Status.lean ====
section
/-!
DEFINITION. DivIrqReg and ErrorReg (40_bus_access.md R84 to R87).
-/

namespace Sys2Proof.Machine

/-- WR.DivIrqReg (R84). -/
def execWrDivIrqReg (d : Byte) (s : State) : StepOutcome := .next (s.writeDivIrq d).answerWrite

/-- RD.DivIrqReg (R85). -/
def execRdDivIrqReg (_x : Byte) (s : State) : StepOutcome := .next (s.answer s.divIrqValue)

/-- WR.ErrorReg (R86): the write is ignored. -/
def execWrErrorReg (_d : Byte) (s : State) : StepOutcome := .next s.answerWrite

/-- RD.ErrorReg (R87). -/
def execRdErrorReg (_x : Byte) (s : State) : StepOutcome := .next (s.answer s.errorValue)

end Sys2Proof.Machine
end

