-- ==== Sys2Proof/Machine/Helpers.lean ====
section
/-!
DEFINITION. The access primitives of 20_memory.md R43 and the two read-modify-write helpers (40_bus_access.md R98, R99). A
helper is two frames, and `CRC.COMPLETE` may fall between them (R47, R53).
-/

namespace Sys2Proof.Machine

/-- R80: the read frame of the register at `a`, with dummy byte `x`. -/
def readRegister (a : RegAddr) (x : Byte) (s : State) : StepOutcome :=
  if a = Config.addrCommandReg then execRdCommandReg x s
  else if a = Config.addrDivIrqReg then execRdDivIrqReg x s
  else if a = Config.addrErrorReg then execRdErrorReg x s
  else if a = Config.addrFifoDataReg then execRdFifoDataReg x s
  else if a = Config.addrFifoLevelReg then execRdFifoLevelReg x s
  else if a = Config.addrCrcResultRegM then execRdCrcResultRegM x s
  else if a = Config.addrCrcResultRegL then execRdCrcResultRegL x s
  else execRdOos a x s

/-- R43, R80: `MemRead(a, 1)`; the value is byte 1 of the reply. -/
def memRead (a : RegAddr) (s : State) : StepOutcome := readRegister a 0x00 s

/-- R43, R80: `MemWrite(a, 1, d)`. -/
def memWrite (a : RegAddr) (d : Byte) (s : State) : StepOutcome :=
  if a = Config.addrCommandReg then execWrCommandReg d s
  else if a = Config.addrDivIrqReg then execWrDivIrqReg d s
  else if a = Config.addrErrorReg then execWrErrorReg d s
  else if a = Config.addrFifoDataReg then execWrFifoDataReg d s
  else if a = Config.addrFifoLevelReg then execWrFifoLevelReg d s
  else if a = Config.addrCrcResultRegM then execWrCrcResultRegM d s
  else if a = Config.addrCrcResultRegL then execWrCrcResultRegL d s
  else execWrOos a d s

/-- SETBITS (R98): read, then write back with the bits of `mask` set. -/
def execSetBits (a : RegAddr) (x mask : Byte) (s : State) : StepOutcome :=
  andThen (readRegister a x s) fun s1 => memWrite a (s1.reply.byte1 ||| mask) s1.betweenFrames

/-- CLRBITS (R99): read, then write back with the bits of `mask` cleared. -/
def execClrBits (a : RegAddr) (x mask : Byte) (s : State) : StepOutcome :=
  andThen (readRegister a x s) fun s1 => memWrite a (s1.reply.byte1 &&& ~~~mask) s1.betweenFrames

end Sys2Proof.Machine
end

