-- ==== Sys2Proof/Machine/Dispatch.lean ====
section
/-!
DEFINITION. One arm for each operation of the opcode table, each a direct call of its meaning.
-/

namespace Sys2Proof.Machine

def exec (i : Instr) (s : State) : Host.Outcome State Fault Refusal :=
  match i with
  | .cmdIdle => Sys2Proof.Machine.execCmdIdle s
  | .cmdCalcCrc => Sys2Proof.Machine.execCmdCalcCrc s
  | .wrCommandReg d => Sys2Proof.Machine.execWrCommandReg d s
  | .rdCommandReg x => Sys2Proof.Machine.execRdCommandReg x s
  | .wrDivIrqReg d => Sys2Proof.Machine.execWrDivIrqReg d s
  | .rdDivIrqReg x => Sys2Proof.Machine.execRdDivIrqReg x s
  | .wrErrorReg d => Sys2Proof.Machine.execWrErrorReg d s
  | .rdErrorReg x => Sys2Proof.Machine.execRdErrorReg x s
  | .wrFifoDataReg d => Sys2Proof.Machine.execWrFifoDataReg d s
  | .rdFifoDataReg x => Sys2Proof.Machine.execRdFifoDataReg x s
  | .wrFifoLevelReg d => Sys2Proof.Machine.execWrFifoLevelReg d s
  | .rdFifoLevelReg x => Sys2Proof.Machine.execRdFifoLevelReg x s
  | .wrCrcResultRegM d => Sys2Proof.Machine.execWrCrcResultRegM d s
  | .rdCrcResultRegM x => Sys2Proof.Machine.execRdCrcResultRegM x s
  | .wrCrcResultRegL d => Sys2Proof.Machine.execWrCrcResultRegL d s
  | .rdCrcResultRegL x => Sys2Proof.Machine.execRdCrcResultRegL x s
  | .wrOos a d => Sys2Proof.Machine.execWrOos a d s
  | .rdOos a x => Sys2Proof.Machine.execRdOos a x s
  | .rsvdFrame rd a d => Sys2Proof.Machine.execRsvdFrame rd a d s
  | .accEnc b0 b1 b2 b3 x => Sys2Proof.Machine.execAccEnc b0 b1 b2 b3 x s
  | .accDec p q r t => Sys2Proof.Machine.execAccDec p q r t s
  | .setBits a x mask => Sys2Proof.Machine.execSetBits a x mask s
  | .clrBits a x mask => Sys2Proof.Machine.execClrBits a x mask s

end Sys2Proof.Machine
end

