-- ==== Sys2Proof/Machine/HostProtocol.lean ====
section
/-!
DEFINITION. The host's pseudo-operations of variable length, POLL and CRC16 (30_encoding.md R69, 41_crc_engine.md R116). They
are sequences of frames; between two frames the engine may complete (R41, R47).
-/

namespace Sys2Proof.Machine

/-- The frame `f` that follows the frames of `o` in one host operation. -/
def thenFrame (o : StepOutcome) (f : State → StepOutcome) : StepOutcome :=
  andThen o fun s => f s.betweenFrames

/-- R69 `FLUSH`: the alias of `SETBITS FIFOLevelReg, #FIFO_FLUSH_MASK`. -/
def flushOp (p : Config.Parameters) : HostOp :=
  .transact (encode p (.setBits Config.addrFifoLevelReg 0x00 p.fifoFlushMask))

/-- R69 `POLL reg, #mask, #n -> ok`: at most `n` reads, ending early when a masked bit reads 1. -/
def poll (a : RegAddr) (mask : Byte) : Nat → State → StepOutcome
  | 0, s => .next (s.setHostResult (.polled false))
  | n + 1, s =>
    andThen (memRead a s) fun s1 =>
      if s1.reply.byte1 &&& mask ≠ 0 then .next (s1.setHostResult (.polled true))
      else poll a mask n (if n = 0 then s1 else s1.betweenFrames)

/-- R116 step 1: clear the CRC-ready flag: CLRBITS, or under `SET2` the plain write of the mask (U8). -/
def crc16ClearFlag (s : State) : StepOutcome :=
  match s.params.divIrqWriteRule with
  | .w0c => execClrBits Config.addrDivIrqReg 0x00 s.params.divIrqCrcMask s
  | .set2 => memWrite Config.addrDivIrqReg s.params.divIrqCrcMask s

/-- R116 step 3: one write of FIFODataReg for each byte, in order. -/
def crc16WriteData : List Byte → StepOutcome → StepOutcome
  | [], o => o
  | b :: rest, o => crc16WriteData rest (thenFrame o (memWrite Config.addrFifoDataReg b))

/-- R116 steps 1 to 4: clear the flag, flush, write `data`, issue CRC-calculate. -/
def crc16Start (data : List Byte) (s : State) : StepOutcome :=
  thenFrame
    (crc16WriteData data
      (thenFrame (crc16ClearFlag s) (execSetBits Config.addrFifoLevelReg 0x00 s.params.fifoFlushMask)))
    (memWrite Config.addrCommandReg (commandByte s.params.cmdCalcCrc))

/-- R116 steps 7 and 8: read the low byte, then the high byte, and hand both over. -/
def crc16ReadResult (s : State) : StepOutcome :=
  andThen (memRead Config.addrCrcResultRegL s) fun s1 =>
    andThen (memRead Config.addrCrcResultRegM s1.betweenFrames) fun s2 =>
      .next (s2.setHostResult (.crc16 s1.reply.byte1 s2.reply.byte1))

/-- R116 steps 6 to 8: what follows the poll. -/
def crc16Finish (s : State) : StepOutcome :=
  if s.hostResult = .polled true then crc16ReadResult s.betweenFrames
  else .next (s.setHostResult .protocolTimeout)

/-- R116 `CRC16 data -> (lsb, msb)`: `computeCRC16`. -/
def crc16 (data : List Byte) (s : State) : StepOutcome :=
  andThen
    (thenFrame (crc16Start data s) (poll Config.addrDivIrqReg s.params.divIrqCrcMask Config.crcPollBudget))
    crc16Finish

end Sys2Proof.Machine
end

