-- ==== Sys2Proof/Machine/Agents.lean ====
section
/-!
DEFINITION. What the host agent does with one operation of its program, and where an operation stands to be fetched
(00_scope.md R5, 10_state.md R25, 30_encoding.md R69). Step.lean only calls these.
-/

namespace Sys2Proof.Machine

/-- The refusal of a transaction that decodes to nothing. -/
def refusalOf : DecodeError → Refusal
  | .frameLength _ => .reservedFrame
  | .notAHelper w => .notAHelper w

/-- Decodes a transaction and runs the operation. -/
def runTransaction (t : Transaction) (s : State) : StepOutcome :=
  match decode s.params t with
  | .ok i => exec i s
  | .error e => .refused (refusalOf e)

/-- Runs one operation of a host program. -/
def runHostOp (op : HostOp) (s : State) : StepOutcome :=
  match op with
  | .transact t => runTransaction t s
  | .poll a mask n => poll a mask n s
  | .crc16 data => crc16 data s
  | .reset => .next s.resetEvent
  | .foreign _ => .refused .concurrentHost

/-- R25: the operation the host presents next, if its program has one left. -/
def State.fetch (s : State) : Option HostOp := s.program[s.hostIndex]?

/-- R25: the host runs its next operation and its index moves on; when the program is over nothing is presented and the block
stays as it is. -/
def hostStep (s : State) : StepOutcome :=
  match s.fetch with
  | none => .next s
  | some op => andThen (runHostOp op s) fun t => .next t.advance

/-- Places an operation where the host fetches its next one; later operations keep their places. -/
def State.placeOp (s : State) (op : HostOp) : State :=
  let n := min s.hostIndex s.program.length
  { s with program := s.program.take n ++ op :: s.program.drop (n + 1), hostIndex := n }

/-- Makes the next move the host's: an engine about to complete waits for one more host frame (R119 admits every finite wait). -/
def State.holdEngine (s : State) : State := if s.engineDue then { s with engineWait := 1 } else s

end Sys2Proof.Machine
end

