-- ==== Sys2Proof/Machine/Step.lean ====
section
/-!
DEFINITION. One step of the machine: the engine's own step when it is due, else one operation of the host (00_scope.md R5;
20_memory.md R41, R51: the completion falls between two frames, never inside one; 60_exceptions.md R146).
-/

namespace Sys2Proof.Machine

/-- One step. -/
def step (s : State) : Host.Outcome State Fault Refusal :=
  if s.engineDue then .next s.crcComplete else hostStep s.hostTurn

/-- `s` with a word of the opcode table placed where `step` fetches its next operation, and the next move the host's. -/
def State.withFetchWord (s : State) (nbits w : Nat) : State :=
  (s.placeOp (.transact (transactionOfTableWord nbits w))).holdEngine

end Sys2Proof.Machine
end

