-- ==== Sys2Proof/Safety.lean ====
section
/-!
DEFINITION. The terms in which claims speak of a state: parameters that fit together, the invariants of 10_state.md R30, what it
means to leave the block or the host alone (for frames), what a host operation means for a running engine, and the read bits
that belong to the block.
-/

namespace Sys2Proof

/-- The parameters fit together: the two command codes differ and stand within the command field, so that each command has a
word of its own (R64), and under `SET2` the flag is not the selecting bit 7 (U8). No step writes the parameters, so this holds
throughout a run or not at all. -/
def Config.Parameters.consistent (p : Config.Parameters) : Bool :=
  p.cmdIdle != p.cmdCalcCrc && commandByte p.cmdIdle &&& ~~~p.cmdFieldMask == 0
    && commandByte p.cmdCalcCrc &&& ~~~p.cmdFieldMask == 0 && (p.divIrqWriteRule == .w0c || p.divIrqCrcBit != 7)

namespace Machine

/-- R30, as far as it holds under every parameter; before it that the parameters fit together, behind it that the host's index
(R25) lies within its program. -/
def State.Inv (s : State) : Prop :=
  s.params.consistent = true
    ∧ s.fifo.length ≤ s.params.fifoCapacity
    ∧ (s.crcPoison = true → s.crcBusy = true)
    ∧ (s.crcBusy = true → s.cmd = s.params.cmdCalcCrc)
    ∧ (s.cmd = s.params.cmdIdle ∨ s.cmd = s.params.cmdCalcCrc)
    ∧ (s.params.crcSelfTerminates = true → s.cmd = s.params.cmdCalcCrc → s.crcBusy = true)
    ∧ s.hostIndex ≤ s.program.length

/-- The seven items of R10 are the same. -/
def SameBlock (s t : State) : Prop :=
  t.cmd = s.cmd ∧ t.crcIrq = s.crcIrq ∧ t.bufOvfl = s.bufOvfl ∧ t.fifo = s.fifo ∧ t.crcResult = s.crcResult
    ∧ t.crcBusy = s.crcBusy ∧ t.crcPoison = s.crcPoison

/-- The host's program, its index, what its pseudo-operations returned, the last codec result and the parameters are the
same. -/
def SameHost (s t : State) : Prop :=
  t.program = s.program ∧ t.hostIndex = s.hostIndex ∧ t.hostResult = s.hostResult ∧ t.codecOut = s.codecOut
    ∧ t.params = s.params

/-- The seven items have the values of R29. -/
def State.BlockReset (s : State) : Prop :=
  s.cmd = s.params.cmdIdle ∧ s.crcIrq = false ∧ s.bufOvfl = false ∧ s.fifo = [] ∧ s.crcResult = none
    ∧ s.crcBusy = false ∧ s.crcPoison = false

/-- What an operation of the host means for a running engine. -/
inductive EngineEffect where
  /-- It may cancel or restart the engine (R112, R113), abandon it (R161), or be refused. -/
  | ends
  /-- The engine goes on to its completion, but the operation may poison it (R115) or lose its flag (R170). -/
  | disturbs
  /-- The engine goes on to its completion undisturbed. -/
  | leaves
deriving DecidableEq, Repr

/-- The effect of a read-modify-write helper on a running engine, by its register. What a helper of CommandReg writes back
depends on unspecified bits. -/
def helperEffect (a : RegAddr) : EngineEffect :=
  if addrClass a = .unnamed ∨ a = Config.addrCommandReg then .ends
  else if a = Config.addrFifoDataReg ∨ a = Config.addrFifoLevelReg ∨ a = Config.addrDivIrqReg then .disturbs
  else .leaves

/-- The effect of an operation of the opcode table on a running engine. -/
def instrEffect (p : Config.Parameters) : Instr → EngineEffect
  | .cmdIdle => .ends
  | .cmdCalcCrc => .ends
  | .wrCommandReg _ => .ends
  | .rdCommandReg _ => .leaves
  | .wrDivIrqReg _ => .leaves
  | .rdDivIrqReg _ => .leaves
  | .wrErrorReg _ => .leaves
  | .rdErrorReg _ => .leaves
  | .wrFifoDataReg _ => .disturbs
  | .rdFifoDataReg _ => .disturbs
  | .wrFifoLevelReg d => if d.getLsbD p.fifoFlushBit then .disturbs else .leaves
  | .rdFifoLevelReg _ => .leaves
  | .wrCrcResultRegM _ => .leaves
  | .rdCrcResultRegM _ => .leaves
  | .wrCrcResultRegL _ => .leaves
  | .rdCrcResultRegL _ => .leaves
  | .wrOos a _ => if addrClass a = .outOfScope then .leaves else .ends
  | .rdOos a _ => if addrClass a = .outOfScope then .leaves else .ends
  | .rsvdFrame _ _ _ => .ends
  | .accEnc _ _ _ _ _ => .leaves
  | .accDec _ _ _ _ => .leaves
  | .setBits a _ _ => helperEffect a
  | .clrBits a _ _ => helperEffect a

/-- The effect of an operation of a host program on a running engine. -/
def HostOp.engineEffect (p : Config.Parameters) : HostOp → EngineEffect
  | .transact t =>
    match decode p t with
    | .ok i => instrEffect p i
    | .error _ => .ends
  | .poll a _ _ =>
    if addrClass a = .unnamed then .ends else if a = Config.addrFifoDataReg then .disturbs else .leaves
  | .crc16 _ => .ends
  | .reset => .ends
  | .foreign _ => .ends

/-- A byte agrees with `v` on the bits of a mask; nothing is said of its other bits. -/
def AgreesOn (mask v b : Byte) : Prop := ∀ k, mask.getLsbD k = true → b.getLsbD k = v.getLsbD k

end Machine

end Sys2Proof
end

