-- ==== Sys2Proof/Certificates/Slice0/Obligations.lean ====
section
/-!
DEFINITION. The statements for the provers. Each docstring names the rule of spec/ it formalises; a decision of the spec's own
(92_eei_decisions.md D<n>) that a statement rests on is named there too. A free value stands in a statement only as something
any value of which will do.
-/

open Sys2Proof Sys2Proof.Machine

/-! ## Encoding -/

/-- R60, R61, R64, R65, R68, R70: no bit of an encoding is dropped, under every choice of the parameters. -/
def Obligations.DecodeOfEncodeIsIdentity : Prop :=
  ∀ (p : Config.Parameters) (i : Instr), i.wellFormed p = true → decode p (encode p i) = .ok i

/-- R60, R61, R64, R65, R68, R70: each transaction stands for at most one operation, and that one encodes back to it. -/
def Obligations.EncodeOfDecodeIsIdentity : Prop :=
  ∀ (p : Config.Parameters) (t : Transaction) (i : Instr), decode p t = .ok i → i.wellFormed p = true ∧ encode p i = t

/-- R70: among the opcode table's rows that match a frame word the decoder takes the one of the highest priority, and there
always is one (R66). The rows of the two commands carry the parameters `CMD_IDLE` and `CMD_CALCCRC`, as the table notes. -/
def Obligations.DecoderFollowsTablePriorities : Prop :=
  ∀ (p : Config.Parameters) (w : FrameWord), p.consistent = true →
    ∃ r ∈ frameRows p, r.row = (decodeFrame p w).tableRow ∧ r.covers w = true
      ∧ ∀ r' ∈ frameRows p, r'.covers w = true → r'.row ≠ r.row → r'.priority < r.priority

/-- 95_test_vectors.md 2.2, 4.1, 4.2: words written out from the spec and what they decode to under the default parameters.
The last word is the two frames of V38 and of R98's example, `[94 00]` and `[14 82]`. The spec runs them for mask 0x80 at level
2; that a bare 32-bit word is SETBITS, and that its data field 0x82 is taken as the mask, is the model's choice
(notes/assumptions/6.md), not the spec's. -/
def Obligations.DecodeOfSpecWords : Prop :=
  decodeTableWord 16 0x0200 = some .cmdIdle ∧ decodeTableWord 16 0x0203 = some .cmdCalcCrc
    ∧ decodeTableWord 16 0x0213 = some (.wrCommandReg 0x13) ∧ decodeTableWord 16 0x82FF = some (.rdCommandReg 0xFF)
    ∧ decodeTableWord 16 0x0A00 = some (.wrDivIrqReg 0x00) ∧ decodeTableWord 16 0x1230 = some (.wrFifoDataReg 0x30)
    ∧ decodeTableWord 16 0xC400 = some (.rdCrcResultRegL 0x00) ∧ decodeTableWord 16 0x548D = some (.wrOos 0x2A 0x8D)
    ∧ decodeTableWord 16 0x8B00 = some (.rsvdFrame true 0x05 0x00)
    ∧ decodeTableWord 33 0x000000268 = some (.accEnc 0 5 1 1 0)
    ∧ decodeTableWord 33 0x13CE021FD = some (.accDec 0xFD 0x21 0xE0 0x3C)
    ∧ decodeTableWord 32 0x94001482 = some (.setBits 0x0A 0x00 0x82)

/-- R11: an address reaches the register of its low six bits, in a write and in a read. -/
def Obligations.WideAddressReachesLowSixBits : Prop :=
  ∀ (p : Config.Parameters) (addr : Nat) (d : Byte),
    decode p (.bus [writeAddrByte addr, d]) = .ok (decodeWrite p (BitVec.ofNat 6 (addr % 64)) d)
    ∧ decode p (.bus [readAddrByte addr, d]) = .ok (decodeRead (BitVec.ofNat 6 (addr % 64)) d)

/-- R61: how the address byte of a register address is made up, and what the block recovers from it. -/
def Obligations.AddressByteAssembly : Prop :=
  ∀ (a : RegAddr) (d : Byte),
    writeAddrByte a.toNat = (a.setWidth 8 <<< 1) &&& 0x7E
    ∧ readAddrByte a.toNat = ((a.setWidth 8 <<< 1) &&& 0x7E) ||| 0x80
    ∧ (writeAddrByte a.toNat).getLsbD 7 = false ∧ (readAddrByte a.toNat).getLsbD 7 = true
    ∧ (writeAddrByte a.toNat).extractLsb' 1 6 = a ∧ (readAddrByte a.toNat).extractLsb' 1 6 = a
    ∧ (writeAddrByte a.toNat).getLsbD 0 = false ∧ (readAddrByte a.toNat).getLsbD 0 = false
    ∧ frameAddr (frameOfBytes (writeAddrByte a.toNat) d) = a ∧ frameAddr (frameOfBytes (readAddrByte a.toNat) d) = a
    ∧ frameData (frameOfBytes (writeAddrByte a.toNat) d) = d

/-- R43: the two access primitives are the frames of R61, with the effect of the operation each decodes to. -/
def Obligations.AccessPrimitivesAreFrames : Prop :=
  ∀ (a : RegAddr) (v : Byte) (s : State),
    memWrite a v s = runTransaction (.bus [(a.setWidth 8 <<< 1) &&& 0x7E, v]) s
    ∧ memRead a s = runTransaction (.bus [((a.setWidth 8 <<< 1) &&& 0x7E) ||| 0x80, 0x00]) s

/-- R62, R63 (decision D2): a frame with bit 0 of its address byte set, and an exchange that is not two bytes, are refused. -/
def Obligations.ReservedFramesAreRefused : Prop :=
  (∀ (b0 b1 : Byte) (s : State), b0.getLsbD 0 = true →
      runTransaction (.bus [b0, b1]) s = .refused .reservedFrame)
    ∧ (∀ (bytes : List Byte) (s : State), bytes.length ≠ 2 → runTransaction (.bus bytes) s = .refused .reservedFrame)
    ∧ ∀ (rd : Bool) (a : RegAddr) (d : Byte) (s : State), exec (.rsvdFrame rd a d) s = .refused .reservedFrame

/-! ## The step -/

/-- A step runs the decoded operation: R41, R80. Around `exec` the step lets one host operation pass (`engineWait`, the
model's own count, notes/assumptions/4.md) and moves the host's index on (R25). -/
def Obligations.StepRunsTheDecodedOperation : Prop :=
  ∀ (s : State) (t : Transaction) (i : Instr),
    s.engineDue = false → s.program[s.hostIndex]? = some (.transact t) → decode s.params t = .ok i →
    i.wellFormed s.params = true
      ∧ step s = andThen (exec i { s with engineWait := s.engineWait - 1 })
          fun u => .next { u with hostIndex := u.hostIndex + 1 }

/-- What a step does that runs no operation of the opcode table: the host's POLL and CRC16 (R69, R116; that one step runs a
whole POLL or CRC16 is the model's own, notes/assumptions/9.md), the reset event (R160, decision D18), a foreign transaction
(R153, decision D24; that it stands as an entry of the host's program is the model's choice, notes/assumptions/11.md), and the
end of the program (R25; that the block then stays as it is is the model's choice, notes/assumptions/5.md). -/
def Obligations.StepOfTheOtherHostOperations : Prop :=
  ∀ s : State, s.engineDue = false →
    (∀ a mask n, s.fetch = some (.poll a mask n) → step s = andThen (poll a mask n s.hostTurn) fun u => .next u.advance)
    ∧ (∀ data, s.fetch = some (.crc16 data) → step s = andThen (crc16 data s.hostTurn) fun u => .next u.advance)
    ∧ (s.fetch = some .reset → ∃ t, step s = .next t ∧ t.BlockReset ∧ t.hostIndex = s.hostIndex + 1)
    ∧ (∀ t, s.fetch = some (.foreign t) → step s = .refused .concurrentHost)
    ∧ (s.fetch = none → ∃ t, step s = .next t ∧ SameBlock s t ∧ SameHost s t ∧ t.reply = s.reply)

/-- A word of the opcode table placed by `withFetchWord` is the operation the very next step runs, on a state whose block,
parameters and draws are those of `s` (the placing is the model's own, notes/assumptions/5.md). `decodeTableWord` is the
decoder under the default parameters, for which the table is written. -/
def Obligations.PlacedWordRunsNext : Prop :=
  ∀ (s : State) (nbits w : Nat) (i : Instr), decode s.params (transactionOfTableWord nbits w) = .ok i →
    (∃ s0, SameBlock s s0 ∧ s0.params = s.params ∧ s0.draws = s.draws
      ∧ step (s.withFetchWord nbits w) = andThen (exec i s0) fun u => .next { u with hostIndex := u.hostIndex + 1 })
    ∧ (s.params = Config.Parameters.defaults → decodeTableWord nbits w = some i)

/-- R114 (decisions D12, D13): the engine's step, when it is due. The result is the checksum of the FIFO in order; a poisoned
completion leaves an unspecified result and an unspecified FIFO of at most `FIFO_CAPACITY` bytes. -/
def Obligations.EngineStepCompletesTheComputation : Prop :=
  ∀ s : State, s.crcBusy = true → s.engineWait = 0 →
    ∃ t, step s = .next t ∧ t.crcIrq = true ∧ t.crcBusy = false ∧ t.crcPoison = false ∧ t.bufOvfl = s.bufOvfl
      ∧ SameHost s t ∧ t.reply = s.reply
      ∧ (s.crcPoison = false → t.crcResult = some (crcOf s.params.crcFn s.fifo))
      ∧ (s.crcPoison = false → s.params.crcSelfTerminates = true → t.fifo = [])
      ∧ (s.params.crcSelfTerminates = true → t.cmd = s.params.cmdIdle)
      ∧ (s.crcPoison = true → t.crcResult.isSome = true ∧ t.fifo.length ≤ s.params.fifoCapacity)

/-! ## Commands -/

/-- R112 (decisions D3, D26): CMD.IDLE completes in every state. A running engine is cancelled and leaves a FIFO of at most
`FIFO_CAPACITY` bytes of which nothing else is said; an idle one leaves the FIFO alone. The done flag, the result and the overflow flag stay. -/
def Obligations.IdleCommandCancelsTheEngine : Prop :=
  ∀ s : State, ∃ t, exec .cmdIdle s = .next t ∧ t.cmd = s.params.cmdIdle ∧ t.crcBusy = false ∧ t.crcPoison = false
    ∧ t.crcIrq = s.crcIrq ∧ t.crcResult = s.crcResult ∧ t.bufOvfl = s.bufOvfl ∧ SameHost s t
    ∧ (s.crcBusy = false → t.fifo = s.fifo) ∧ (s.crcBusy = true → t.fifo.length ≤ s.params.fifoCapacity)

/-- R113, R166 (decisions D3, D11, D14): CMD.CALCCRC completes in every state, starts the engine, forgets an earlier poison,
and leaves the FIFO, the done flag, the result and the overflow flag as they are. -/
def Obligations.CalcCrcCommandStartsTheEngine : Prop :=
  ∀ s : State, ∃ t, exec .cmdCalcCrc s = .next t ∧ t.cmd = s.params.cmdCalcCrc ∧ t.crcBusy = true ∧ t.crcPoison = false
    ∧ t.fifo = s.fifo ∧ t.crcIrq = s.crcIrq ∧ t.crcResult = s.crcResult ∧ t.bufOvfl = s.bufOvfl ∧ SameHost s t

/-- R82 (decision D3): a write of CommandReg performs the command its byte carries and is refused for every other byte, first of
all for one with a bit outside the command field. Under the default parameters the two commands' bytes are 0x00 and 0x03,
and the clauses are R82's; that the code stands unshifted under every other field mask is the model's choice (notes/assumptions/2.md). -/
def Obligations.CommandRegWritePerformsOrRefuses : Prop :=
  ∀ (d : Byte) (s : State),
    (d &&& ~~~s.params.cmdFieldMask ≠ 0 → exec (.wrCommandReg d) s = .refused (.reservedCommand d))
    ∧ (d &&& ~~~s.params.cmdFieldMask = 0 → d = commandByte s.params.cmdIdle →
        ∃ t, exec (.wrCommandReg d) s = .next t ∧ exec .cmdIdle s = .next t)
    ∧ (d &&& ~~~s.params.cmdFieldMask = 0 → d ≠ commandByte s.params.cmdIdle → d = commandByte s.params.cmdCalcCrc →
        ∃ t, exec (.wrCommandReg d) s = .next t ∧ exec .cmdCalcCrc s = .next t)
    ∧ (d ≠ commandByte s.params.cmdIdle → d ≠ commandByte s.params.cmdCalcCrc →
        exec (.wrCommandReg d) s = .refused (.reservedCommand d))

/-- R83 (decisions D3, D12): the command field of CommandReg reads as the command code, under the default mask in the low
nibble; nothing of the block changes. That the code stands unshifted under every other field mask is the model's choice
(notes/assumptions/2.md). -/
def Obligations.CommandRegReadsTheCommandField : Prop :=
  ∀ (x : Byte) (s : State), ∃ t, exec (.rdCommandReg x) s = .next t
    ∧ AgreesOn s.params.cmdFieldMask (commandByte s.cmd) t.reply.byte1
    ∧ (s.params.cmdFieldMask = 0x0F → t.reply.byte1.extractLsb' 0 4 = s.cmd) ∧ SameBlock s t ∧ SameHost s t

/-! ## DivIrqReg and ErrorReg -/

/-- R84 (decisions D4, D5): a write of DivIrqReg with the CRC bit (by default bit 2) at 0 clears the done flag, with it at 1
leaves it; under the alternative rule `SET2` (U8) bit 7 chooses what a 1 at the CRC bit does. Nothing else of the block
changes. -/
def Obligations.DivIrqRegWriteRule : Prop :=
  ∀ (d : Byte) (s : State), ∃ t, exec (.wrDivIrqReg d) s = .next t
    ∧ (s.params.divIrqWriteRule = .w0c → t.crcIrq = (s.crcIrq && d.getLsbD s.params.divIrqCrcBit))
    ∧ (s.params.divIrqWriteRule = .set2 → t.crcIrq = if d.getLsbD s.params.divIrqCrcBit then d.getLsbD 7 else s.crcIrq)
    ∧ t.cmd = s.cmd ∧ t.bufOvfl = s.bufOvfl ∧ t.fifo = s.fifo ∧ t.crcResult = s.crcResult ∧ t.crcBusy = s.crcBusy
    ∧ t.crcPoison = s.crcPoison ∧ SameHost s t

/-- R85 (decision D4): the CRC bit of DivIrqReg (by default bit 2) reads as the done flag; the read clears nothing. -/
def Obligations.DivIrqRegReadsTheDoneFlag : Prop :=
  ∀ (x : Byte) (s : State), ∃ t, exec (.rdDivIrqReg x) s = .next t
    ∧ t.reply.byte1.getLsbD s.params.divIrqCrcBit = s.crcIrq ∧ SameBlock s t ∧ SameHost s t

/-- R86, R92, R94 (decision D16): a write of ErrorReg or of a result register is ignored. -/
def Obligations.ReadOnlyRegistersIgnoreWrites : Prop :=
  ∀ (d : Byte) (s : State),
    (∃ t, exec (.wrErrorReg d) s = .next t ∧ SameBlock s t ∧ SameHost s t)
    ∧ (∃ t, exec (.wrCrcResultRegM d) s = .next t ∧ SameBlock s t ∧ SameHost s t)
    ∧ ∃ t, exec (.wrCrcResultRegL d) s = .next t ∧ SameBlock s t ∧ SameHost s t

/-- R87 (decision D8): the overflow bit of ErrorReg (by default bit 4) reads as the overflow flag; the read clears nothing. -/
def Obligations.ErrorRegReadsTheOverflowFlag : Prop :=
  ∀ (x : Byte) (s : State), ∃ t, exec (.rdErrorReg x) s = .next t
    ∧ t.reply.byte1.getLsbD s.params.errBufOvflBit = s.bufOvfl ∧ SameBlock s t ∧ SameHost s t

/-! ## The FIFO -/

/-- R88 (decisions D8, D13): a write of FIFODataReg appends its byte, or on a full FIFO drops it and sets the overflow flag;
while the engine runs it poisons. -/
def Obligations.FifoDataWriteAppends : Prop :=
  ∀ (d : Byte) (s : State), ∃ t, exec (.wrFifoDataReg d) s = .next t
    ∧ (s.fifo.length = s.params.fifoCapacity → t.fifo = s.fifo ∧ t.bufOvfl = true)
    ∧ (s.fifo.length ≠ s.params.fifoCapacity → t.fifo = s.fifo ++ [d] ∧ t.bufOvfl = s.bufOvfl)
    ∧ t.crcPoison = (s.crcPoison || s.crcBusy) ∧ t.cmd = s.cmd ∧ t.crcIrq = s.crcIrq ∧ t.crcResult = s.crcResult
    ∧ t.crcBusy = s.crcBusy ∧ SameHost s t

/-- R89 (decisions D9, D13): a read of FIFODataReg removes and returns the oldest byte; an empty FIFO stays empty, and of the
byte then returned nothing is said. While the engine runs it poisons. -/
def Obligations.FifoDataReadRemovesTheHead : Prop :=
  ∀ (x : Byte) (s : State), ∃ t, exec (.rdFifoDataReg x) s = .next t
    ∧ (∀ b rest, s.fifo = b :: rest → t.reply.byte1 = b ∧ t.fifo = rest) ∧ (s.fifo = [] → t.fifo = [])
    ∧ t.crcPoison = (s.crcPoison || s.crcBusy) ∧ t.bufOvfl = s.bufOvfl ∧ t.cmd = s.cmd ∧ t.crcIrq = s.crcIrq
    ∧ t.crcResult = s.crcResult ∧ t.crcBusy = s.crcBusy ∧ SameHost s t

/-- R90 (decisions D6, D13): a write of FIFOLevelReg with the flush bit (by default bit 7) at 1 empties the FIFO, clears the
overflow flag and poisons a running engine; with the flush bit at 0 it does nothing. -/
def Obligations.FifoLevelWriteFlushes : Prop :=
  ∀ (d : Byte) (s : State), ∃ t, exec (.wrFifoLevelReg d) s = .next t
    ∧ (d.getLsbD s.params.fifoFlushBit = true → t.fifo = [] ∧ t.bufOvfl = false ∧ t.crcPoison = (s.crcPoison || s.crcBusy))
    ∧ (d.getLsbD s.params.fifoFlushBit = false → SameBlock s t)
    ∧ t.cmd = s.cmd ∧ t.crcIrq = s.crcIrq ∧ t.crcResult = s.crcResult ∧ t.crcBusy = s.crcBusy ∧ SameHost s t

/-- R91, R17 (decision D7): FIFOLevelReg reads as the number of bytes in the FIFO, on the bits of the level mask, and the flush
bit as 0. With the default masks and capacity the byte is the count. That under every other mask the count stands unshifted and
the flush bit reads 0, and that a count too large for the level bits is cut to them, is the model's choice
(notes/assumptions/2.md). -/
def Obligations.FifoLevelReadsTheCount : Prop :=
  ∀ (x : Byte) (s : State), ∃ t, exec (.rdFifoLevelReg x) s = .next t
    ∧ t.reply.byte1 = BitVec.ofNat 8 s.fifo.length &&& s.params.fifoLevelMask &&& ~~~s.params.fifoFlushMask
    ∧ t.reply.byte1.getLsbD s.params.fifoFlushBit = false
    ∧ (s.params.fifoLevelMask = 0x7F → s.params.fifoFlushBit = 7 → s.params.fifoCapacity = 16 →
        s.fifo.length ≤ s.params.fifoCapacity → t.reply.byte1.toNat = s.fifo.length)
    ∧ SameBlock s t ∧ SameHost s t

/-- R21, R169: bytes written one after another stand in the FIFO in the order of writing; those beyond its capacity are
dropped and set the overflow flag. -/
def Obligations.FifoKeepsTheOrderOfWriting : Prop :=
  ∀ (data : List Byte) (s : State), s.fifo.length ≤ s.params.fifoCapacity →
    ∃ t, data.foldl (fun o b => andThen o (exec (.wrFifoDataReg b))) (.next s) = .next t
      ∧ t.fifo = (s.fifo ++ data).take s.params.fifoCapacity
      ∧ t.bufOvfl = (s.bufOvfl || decide (s.params.fifoCapacity < s.fifo.length + data.length))

/-! ## The result registers -/

/-- R93: CRCResultRegM reads as the high byte of the last completed result, while the engine runs too; nothing changes. While
the result is unwritten nothing is said of the byte. -/
def Obligations.ResultRegMReadsTheHighByte : Prop :=
  ∀ (x : Byte) (s : State), ∃ t, exec (.rdCrcResultRegM x) s = .next t
    ∧ (∀ r, s.crcResult = some r → t.reply.byte1 = r.extractLsb' 8 8) ∧ SameBlock s t ∧ SameHost s t

/-- R95: CRCResultRegL reads as the low byte of the last completed result, while the engine runs too; nothing changes. While
the result is unwritten nothing is said of the byte. -/
def Obligations.ResultRegLReadsTheLowByte : Prop :=
  ∀ (x : Byte) (s : State), ∃ t, exec (.rdCrcResultRegL x) s = .next t
    ∧ (∀ r, s.crcResult = some r → t.reply.byte1 = r.extractLsb' 0 8) ∧ SameBlock s t ∧ SameHost s t

/-! ## Addresses the block does not own -/

/-- R19, R96, R97 (decision D19; that the model takes the effect and not the optional refusal is its choice,
notes/assumptions/8.md): a frame to a named register of another block completes and changes nothing of this one. -/
def Obligations.NamedForeignRegistersHaveNoEffect : Prop :=
  ∀ (a : RegAddr) (d : Byte) (s : State),
    a ∈ [0x02#6, 0x04#6, 0x08#6, 0x0C#6, 0x0D#6, 0x14#6, 0x26#6, 0x2A#6, 0x2B#6, 0x2C#6, 0x2D#6] →
    (∃ t, exec (.wrOos a d) s = .next t ∧ SameBlock s t ∧ SameHost s t)
    ∧ ∃ t, exec (.rdOos a d) s = .next t ∧ SameBlock s t ∧ SameHost s t

/-- R20, R96, R97 (decision D19): a frame to an address the source does not name is refused. -/
def Obligations.UnnamedAddressesAreRefused : Prop :=
  ∀ (a : RegAddr) (d : Byte) (s : State),
    a ∉ [0x01#6, 0x05#6, 0x06#6, 0x09#6, 0x0A#6, 0x21#6, 0x22#6] →
    a ∉ [0x02#6, 0x04#6, 0x08#6, 0x0C#6, 0x0D#6, 0x14#6, 0x26#6, 0x2A#6, 0x2B#6, 0x2C#6, 0x2D#6] →
    memWrite a d s = .refused (.reservedRegister a) ∧ memRead a s = .refused (.reservedRegister a)
      ∧ exec (.wrOos a d) s = .refused (.reservedRegister a) ∧ exec (.rdOos a d) s = .refused (.reservedRegister a)

/-! ## Read-modify-write helpers -/

/-- R98: SETBITS is the read frame and then the write frame of the value read with the mask's bits set; between the two the
engine may complete (R47). It stops where one of its frames stops. -/
def Obligations.SetBitsIsReadThenWrite : Prop :=
  ∀ (a : RegAddr) (x mask : Byte) (s : State),
    exec (.setBits a x mask) s =
      andThen (exec (decodeRead a x) s) fun s1 => exec (decodeWrite s.params a (s1.reply.byte1 ||| mask)) s1.betweenFrames

/-- R99: CLRBITS is the read frame and then the write frame of the value read with the mask's bits cleared; between the two the
engine may complete (R47). It stops where one of its frames stops. -/
def Obligations.ClrBitsIsReadThenWrite : Prop :=
  ∀ (a : RegAddr) (x mask : Byte) (s : State),
    exec (.clrBits a x mask) s =
      andThen (exec (decodeRead a x) s) fun s1 => exec (decodeWrite s.params a (s1.reply.byte1 &&& ~~~mask)) s1.betweenFrames

/-- R98, R99: SETBITS and CLRBITS complete at every named register but CommandReg, in every state (that they do at the eleven
registers of other blocks rests on the model's choice of R19's effect over the optional refusal, notes/assumptions/8.md), and at
CommandReg exactly when the byte written back is a command of the block (R82; which byte that is under another command field
mask than the default is the model's choice, notes/assumptions/2.md). Where CMD_IDLE is 0, as by default, CLRBITS with
mask 0xFF there is the idle command. -/
def Obligations.ReadModifyWriteCompletes : Prop :=
  ∀ (a : RegAddr) (x mask : Byte) (s : State),
    (a ∈ [0x05#6, 0x06#6, 0x09#6, 0x0A#6, 0x21#6, 0x22#6, 0x02#6, 0x04#6, 0x08#6, 0x0C#6, 0x0D#6, 0x14#6, 0x26#6, 0x2A#6,
        0x2B#6, 0x2C#6, 0x2D#6] →
      (∃ t, exec (.setBits a x mask) s = .next t ∧ SameHost s t) ∧ ∃ t, exec (.clrBits a x mask) s = .next t ∧ SameHost s t)
    ∧ (s.params.consistent = true →
        ((∃ t, exec (.setBits 0x01 x mask) s = .next t) ↔
          (s.commandValue ||| mask = commandByte s.params.cmdIdle ∨ s.commandValue ||| mask = commandByte s.params.cmdCalcCrc))
        ∧ ((∃ t, exec (.clrBits 0x01 x mask) s = .next t) ↔
          (s.commandValue &&& ~~~mask = commandByte s.params.cmdIdle
            ∨ s.commandValue &&& ~~~mask = commandByte s.params.cmdCalcCrc)))
    ∧ (s.params.cmdIdle = 0 →
        ∃ t, exec (.clrBits 0x01 x 0xFF) s = .next t ∧ t.cmd = s.params.cmdIdle ∧ t.crcBusy = false ∧ SameHost s t)

/-- R90, R98, V38 (decision D6): SETBITS on FIFOLevelReg with the flush bit in its mask flushes the FIFO; with an idle engine
nothing else of the block changes. -/
def Obligations.SetBitsFlushesTheFifo : Prop :=
  ∀ (x mask : Byte) (s : State), mask.getLsbD s.params.fifoFlushBit = true →
    ∃ t, exec (.setBits Config.addrFifoLevelReg x mask) s = .next t ∧ t.fifo = [] ∧ t.bufOvfl = false ∧ SameHost s t
      ∧ (s.crcBusy = false → t.crcBusy = false ∧ t.crcPoison = s.crcPoison ∧ t.cmd = s.cmd ∧ t.crcIrq = s.crcIrq
          ∧ t.crcResult = s.crcResult)

/-- R99, V37 (decisions D4, D5): CLRBITS on DivIrqReg with the CRC bit in its mask leaves the done flag clear, whatever was
read and whether or not the engine completes in between. -/
def Obligations.ClrBitsClearsTheDoneFlag : Prop :=
  ∀ (x mask : Byte) (s : State), s.params.divIrqWriteRule = .w0c → mask.getLsbD s.params.divIrqCrcBit = true →
    ∃ t, exec (.clrBits Config.addrDivIrqReg x mask) s = .next t ∧ t.crcIrq = false ∧ SameHost s t
      ∧ (s.crcBusy = false → t.fifo = s.fifo ∧ t.crcResult = s.crcResult ∧ t.cmd = s.cmd ∧ t.bufOvfl = s.bufOvfl
          ∧ t.crcBusy = false ∧ t.crcPoison = s.crcPoison)

/-- R53, R170, V39: a SETBITS or CLRBITS of DivIrqReg whose mask leaves the CRC bit out loses a completion that falls between
its two frames: the result is there, the engine is idle, and the done flag is 0. -/
def Obligations.ReadModifyWriteLosesTheFlag : Prop :=
  ∀ (x mask : Byte) (s : State), s.params.divIrqWriteRule = .w0c → mask.getLsbD s.params.divIrqCrcBit = false →
    s.crcIrq = false → s.crcBusy = true → s.crcPoison = false → s.engineWait = 0 →
    (∃ t, exec (.setBits Config.addrDivIrqReg x mask) s = .next t ∧ t.crcIrq = false ∧ t.crcBusy = false
      ∧ t.crcResult = some (crcOf s.params.crcFn s.fifo))
    ∧ ∃ t, exec (.clrBits Config.addrDivIrqReg x mask) s = .next t ∧ t.crcIrq = false ∧ t.crcBusy = false
      ∧ t.crcResult = some (crcOf s.params.crcFn s.fifo)

/-- R53 (decision D5): a SETBITS of DivIrqReg with the CRC bit in its mask neither sets the done flag nor loses it: afterwards
the flag is 1 exactly when it was 1 or the engine completed between the two frames. -/
def Obligations.SetBitsWithTheCrcBitKeepsTheFlag : Prop :=
  ∀ (x mask : Byte) (s : State), s.params.divIrqWriteRule = .w0c → mask.getLsbD s.params.divIrqCrcBit = true →
    ∃ t, exec (.setBits Config.addrDivIrqReg x mask) s = .next t ∧ t.crcIrq = (s.crcIrq || s.engineDue) ∧ SameHost s t

/-! ## The access-control codec -/

/-- R139, R133, R68 (decisions D20, D21, D27): every bit of the word ACC.ENC returns, under either order of the code
bits (`hi` is the bit of position 1, `lo` that of position 3). The block is untouched. -/
def Obligations.AccEncBitMap : Prop :=
  ∀ (b0 b1 b2 b3 : AccessCode) (x : BitVec 20) (s : State), ∃ t, exec (.accEnc b0 b1 b2 b3 x) s = .next t
    ∧ SameBlock s t ∧ t.program = s.program ∧ t.hostIndex = s.hostIndex ∧ t.params = s.params
    ∧ t.reply = s.reply ∧ t.engineWait = s.engineWait
    ∧ ∀ hi lo : Nat,
        (s.params.accBitOrder = .c1High ∧ hi = 2 ∧ lo = 0) ∨ (s.params.accBitOrder = .c1Low ∧ hi = 0 ∧ lo = 2) →
        ∀ (k : Nat) (c : AccessCode), (k, c) ∈ [(0, b0), (1, b1), (2, b2), (3, b3)] →
          t.codecOut.getLsbD k = !c.getLsbD hi ∧ t.codecOut.getLsbD (4 + k) = !c.getLsbD 1
          ∧ t.codecOut.getLsbD (8 + k) = !c.getLsbD lo ∧ t.codecOut.getLsbD (12 + k) = c.getLsbD hi
          ∧ t.codecOut.getLsbD (16 + k) = c.getLsbD 1 ∧ t.codecOut.getLsbD (20 + k) = c.getLsbD lo
          ∧ t.codecOut.getLsbD (24 + k) = ((!c.getLsbD hi) ^^ (!c.getLsbD lo) ^^ c.getLsbD 1)
          ∧ t.codecOut.getLsbD (28 + k) = ((!c.getLsbD 1) ^^ c.getLsbD hi ^^ c.getLsbD lo)

/-- R134, R136, R68 (decisions D20, D21, D22): every bit of the word ACC.DEC returns, under either order of the code bits;
bytes 0 and 3 and the low nibble of byte 1 do not stand in it. The block is untouched. -/
def Obligations.AccDecBitMap : Prop :=
  ∀ (p q r y : Byte) (s : State), ∃ t, exec (.accDec p q r y) s = .next t
    ∧ SameBlock s t ∧ t.program = s.program ∧ t.hostIndex = s.hostIndex ∧ t.params = s.params
    ∧ t.reply = s.reply ∧ t.engineWait = s.engineWait
    ∧ (∀ hi lo : Nat,
        (s.params.accBitOrder = .c1High ∧ hi = 2 ∧ lo = 0) ∨ (s.params.accBitOrder = .c1Low ∧ hi = 0 ∧ lo = 2) →
        ∀ k, k < 4 → t.codecOut.getLsbD (3 * k + hi) = q.getLsbD (4 + k) ∧ t.codecOut.getLsbD (3 * k + 1) = r.getLsbD k
          ∧ t.codecOut.getLsbD (3 * k + lo) = r.getLsbD (4 + k))
    ∧ ∀ j, 12 ≤ j → t.codecOut.getLsbD j = false

/-- R135, under either order of the code bits: (a) the round trip, (b) the XOR byte, (c) injectivity, (d) the complemented
nibbles, (e) re-encoding a decoded word gives it back exactly for the encoder's outputs. -/
def Obligations.CodecLaws : Prop :=
  ∀ order : Config.AccBitOrder,
    (∀ v, accDecode order (accEncode order v) = v)
    ∧ (∀ v, (accEncode order v).byte3
        = (accEncode order v).byte0 ^^^ (accEncode order v).byte1 ^^^ (accEncode order v).byte2)
    ∧ (∀ v v', accEncode order v = accEncode order v' → v = v')
    ∧ (∀ v, (accEncode order v).byte0.extractLsb' 0 4 = ~~~(accEncode order v).byte1.extractLsb' 4 4
        ∧ (accEncode order v).byte0.extractLsb' 4 4 = ~~~(accEncode order v).byte2.extractLsb' 0 4
        ∧ (accEncode order v).byte1.extractLsb' 0 4 = ~~~(accEncode order v).byte2.extractLsb' 4 4)
    ∧ ∀ y, accEncode order (accDecode order y) = y ↔ ∃ v, y = accEncode order v

/-! ## The checksum function -/

/-- R111 (decision D10, general knowledge G1): the byte-at-a-time form of `CRC_A` computes the same checksum. -/
def Obligations.CrcByteFormEqualsBitwiseForm : Prop :=
  ∀ s : List Byte, crcATable s = crcA s

/-- R111 (decision D10, general knowledge G1): the residue of `CRC_A` over data followed by its checksum, low byte first, is
zero. -/
def Obligations.CrcResidueIsZero : Prop :=
  ∀ s : List Byte, crcA (s ++ [(crcA s).extractLsb' 0 8, (crcA s).extractLsb' 8 8]) = 0

/-! ## The host protocol and progress -/

/-- R117, under the parameter R6 writes every rule for (`CRC_SELF_TERMINATES` true; decision D12): from every state with an
idle engine, CRC16 of at most `FIFO_CAPACITY` bytes returns the checksum, low byte first, or the timeout, and leaves the state
R117 says. It is never refused. That CRC16 is one operation of the model is its own (notes/assumptions/9.md). -/
def Obligations.Crc16ReturnsTheChecksumOrTimesOut : Prop :=
  ∀ (data : List Byte) (s : State), s.params.consistent = true → s.crcBusy = false →
    data.length ≤ s.params.fifoCapacity → s.params.crcSelfTerminates = true →
    ∃ t, crc16 data s = .next t ∧
      ((t.hostResult = .crc16 ((crcOf s.params.crcFn data).extractLsb' 0 8) ((crcOf s.params.crcFn data).extractLsb' 8 8)
          ∧ t.crcIrq = true ∧ t.crcBusy = false ∧ t.fifo = [] ∧ t.bufOvfl = false
          ∧ t.crcResult = some (crcOf s.params.crcFn data) ∧ t.cmd = s.params.cmdIdle)
        ∨ (t.hostResult = .protocolTimeout ∧ t.crcBusy = true ∧ t.crcIrq = false ∧ t.fifo = data
          ∧ t.crcResult = s.crcResult))

/-- R69, R119, R173: a POLL of the done flag of a running engine sees it exactly when the completion falls within the budget:
any number of polls, and none, is admitted. `engineWait` is the model's count (notes/assumptions/4.md), and the statement holds
for every value of it. -/
def Obligations.PollSeesTheFlagWithinTheBudget : Prop :=
  ∀ (n : Nat) (s : State), s.crcBusy = true → s.crcIrq = false →
    ∃ t, poll Config.addrDivIrqReg s.params.divIrqCrcMask n s = .next t
      ∧ (s.engineWait + 2 ≤ n → t.hostResult = .polled true ∧ t.crcIrq = true ∧ t.crcBusy = false)
      ∧ (n < s.engineWait + 2 → t.hostResult = .polled false ∧ t.crcIrq = false ∧ t.crcBusy = true)

/-- R119 (decision D15): a started engine that nobody cancels completes. Whatever the host's remaining program, as long as none
of its operations issues a command, resets or is refused (`HostOp.engineEffect`), finitely many steps reach a state in which the
engine is idle and a result is written. If moreover none of them touches the FIFO, or reads and writes back DivIrqReg, the done
flag is set there and the result is the checksum of the FIFO, unless the engine was poisoned before. That the wait is finite and
counted in host operations is the model's form of the fairness (notes/assumptions/4.md), and the steps past the program's end are
the model's choice (notes/assumptions/5.md). -/
def Obligations.StartedEngineCompletes : Prop :=
  ∀ s : State, s.crcBusy = true → (∀ op ∈ s.program.drop s.hostIndex, op.engineEffect s.params ≠ .ends) →
    ∃ (n : Nat) (t : State), Host.Core.run Sys2Proof.core n s = .next t ∧ t.crcBusy = false ∧ t.crcResult.isSome = true
      ∧ ((∀ op ∈ s.program.drop s.hostIndex, op.engineEffect s.params = .leaves) →
          t.crcIrq = true ∧ (s.crcPoison = false → t.crcResult = some (crcOf s.params.crcFn s.fifo)))

/-- R119 (decision D15): no operation of the opcode table holds the engine up. While it runs, a host operation that completes
brings the completion nearer, unless the operation completes or cancels the computation or starts it again (R112, R113). -/
def Obligations.HostOperationsDoNotHoldTheEngineUp : Prop :=
  ∀ (i : Instr) (s t : State), s.crcBusy = true → s.engineDue = false → exec i s.hostTurn = .next t →
    t.crcBusy = false ∨ t.engineWait < s.engineWait
      ∨ (i = .cmdCalcCrc ∨ i = .wrCommandReg (commandByte s.params.cmdCalcCrc) ∨ (∃ x m, i = .setBits 0x01 x m) ∨ ∃ x m, i = .clrBits 0x01 x m)

/-! ## The whole machine -/

/-- R30: every step keeps the invariants, from every state that has them. Beside R30's own, `State.Inv` holds the model's: the
parameters fit together (notes/assumptions/2.md) and the host's index lies within its program (R25). -/
def Obligations.StepKeepsTheInvariants : Prop :=
  ∀ s t : State, s.Inv → step s = .next t → t.Inv

/-- R29, R161 (decisions D16, D18): the state after reset. The seven items have the values of R29's table, after
`State.reset` and after the reset event in every state, and the invariants of R30 hold. That the host's own fields and the
parameters survive the reset event is the model's choice (notes/assumptions/1.md): D16 and D18 speak of the seven items. -/
def Obligations.ResetState : Prop :=
  State.reset.BlockReset ∧ State.reset.Inv
    ∧ ∀ s : State, s.resetEvent.BlockReset ∧ s.resetEvent.engineDue = false ∧ SameHost s s.resetEvent

/-- R140: no operation makes the hardware trap. That no step of the model faults rests beside it on the model's choice of the
value-returning rules over the optional faults of R156 (notes/assumptions/7.md). -/
def Obligations.NoStepFaults : Prop :=
  ∀ (s : State) (f : Fault), step s ≠ .fault f

/-- R51: the flag and the result are written together, so a flag that reads 1 stands for a written result: every step keeps
that (under the default write rule, by which a write cannot set the flag). -/
def Obligations.DoneFlagMeansWrittenResult : Prop :=
  ∀ s t : State, s.params.divIrqWriteRule = .w0c → (s.crcIrq = true → s.crcResult.isSome = true) → step s = .next t →
    t.crcIrq = true → t.crcResult.isSome = true

/-- R6: the parameters of the state after reset have the defaults of its table, and these fit together. That a state
carries them is the model's choice (notes/assumptions/2.md). -/
def Obligations.ParametersAfterReset : Prop :=
  State.reset.params.fifoCapacity = 16 ∧ State.reset.params.cmdIdle = 0x0 ∧ State.reset.params.cmdCalcCrc = 0x3
    ∧ State.reset.params.cmdFieldMask = 0x0F ∧ State.reset.params.divIrqCrcMask = 0x04
    ∧ State.reset.params.fifoFlushMask = 0x80 ∧ State.reset.params.fifoLevelMask = 0x7F
    ∧ State.reset.params.errBufOvflMask = 0x10 ∧ State.reset.params.crcFn = .crcA
    ∧ State.reset.params.accBitOrder = .c1High ∧ State.reset.params.divIrqWriteRule = .w0c
    ∧ State.reset.params.crcSelfTerminates = true ∧ State.reset.params.consistent = true

/-- R6: no step writes the parameters. -/
def Obligations.StepKeepsTheParameters : Prop :=
  ∀ s t : State, step s = .next t → t.params = s.params

/-- R144 (decision D5 for what a written 0 does): no frame sets the done flag, and none clears it but a write of DivIrqReg with
the CRC bit at 0; the completion sets it and the reset event clears it. The helpers are two frames each (R98, R99). -/
def Obligations.DoneFlagIsSetByCompletionOnly : Prop :=
  (∀ (i : Instr) (s t : State), s.params.divIrqWriteRule = .w0c → (∀ a x m, i ≠ .setBits a x m ∧ i ≠ .clrBits a x m) →
      exec i s = .next t →
      (t.crcIrq = true → s.crcIrq = true)
        ∧ (s.crcIrq = true → t.crcIrq = false → ∃ d, i = .wrDivIrqReg d ∧ d.getLsbD s.params.divIrqCrcBit = false))
    ∧ ∀ s : State, s.crcComplete.crcIrq = true ∧ s.resetEvent.crcIrq = false

/-- R10, R26, R27: a frame or a codec transaction never writes the result; only a write of FIFODataReg on a full FIFO sets the
overflow flag, and only a flush clears it. -/
def Obligations.ResultAndOverflowHaveOneWriter : Prop :=
  ∀ (i : Instr) (s t : State), (∀ a x m, i ≠ .setBits a x m ∧ i ≠ .clrBits a x m) → exec i s = .next t →
    t.crcResult = s.crcResult
      ∧ (s.bufOvfl = false → t.bufOvfl = true → (∃ d, i = .wrFifoDataReg d) ∧ s.fifo.length = s.params.fifoCapacity)
      ∧ (s.bufOvfl = true → t.bufOvfl = false → ∃ d, i = .wrFifoLevelReg d ∧ d.getLsbD s.params.fifoFlushBit = true)

/-- R115 (decision D13): nothing poisons the engine but a write or a read of FIFODataReg or a flush while it runs. -/
def Obligations.OnlyFifoAccessesPoison : Prop :=
  ∀ (i : Instr) (s t : State), (∀ a x m, i ≠ .setBits a x m ∧ i ≠ .clrBits a x m) → exec i s = .next t →
    s.crcPoison = false →
    (t.crcPoison = true ↔ s.crcBusy = true ∧ ((∃ d, i = .wrFifoDataReg d) ∨ (∃ x, i = .rdFifoDataReg x)
      ∨ ∃ d, i = .wrFifoLevelReg d ∧ d.getLsbD s.params.fifoFlushBit = true))

/-- R81 (decision D1): a read frame changes nothing of the block, but for a read of FIFODataReg. -/
def Obligations.ReadsChangeNothing : Prop :=
  ∀ (a : RegAddr) (x : Byte) (s t : State), a ≠ Config.addrFifoDataReg → exec (decodeRead a x) s = .next t →
    SameBlock s t ∧ SameHost s t

/-- R10: the seven items are the whole state. Two states that agree on them and on the parameters stay in agreement under every
frame and codec transaction, whatever the draws, the host's fields and the engine's moment, and one is refused as the other
is; only an idle command that cancels a running engine leaves a draw behind (R112). -/
def Obligations.SevenItemsAreTheWholeState : Prop :=
  ∀ (i : Instr) (s s' : State), SameBlock s s' → s'.params = s.params →
    (∀ a x m, i ≠ .setBits a x m ∧ i ≠ .clrBits a x m) →
    (s.crcBusy = true → i ≠ .cmdIdle ∧ i ≠ .wrCommandReg (commandByte s.params.cmdIdle)) →
    (∀ t, exec i s = .next t → ∃ t', exec i s' = .next t' ∧ SameBlock t t')
      ∧ ∀ r, exec i s = .refused r → exec i s' = .refused r

/-- R130: the codec reads no state: its result is the same in every state of the same parameters. -/
def Obligations.CodecReadsNoState : Prop :=
  ∀ (b0 b1 b2 b3 : AccessCode) (x x' : BitVec 20) (p q r y : Byte) (s s' : State), s'.params = s.params →
    (∃ t t', exec (.accEnc b0 b1 b2 b3 x) s = .next t ∧ exec (.accEnc b0 b1 b2 b3 x') s' = .next t'
      ∧ t.codecOut = t'.codecOut)
    ∧ ∃ t t', exec (.accDec p q r y) s = .next t ∧ exec (.accDec p q r y) s' = .next t' ∧ t.codecOut = t'.codecOut
end

