-- ==== Sys2Proof/Laws/Codec.lean ====
section
/-!
SUPPORT. The nibbles of the codec's bytes (42_access_codec.md R132, R133), each read back once.
-/

namespace Sys2Proof.Machine

theorem nibbleByte_high : ∀ h l : BitVec 4, (nibbleByte h l).extractLsb' 4 4 = h := by decide

theorem nibbleByte_low : ∀ h l : BitVec 4, (nibbleByte h l).extractLsb' 0 4 = l := by decide

theorem nibbleByte_bits : ∀ (h l : BitVec 4) (k : Nat), k < 4 →
    (nibbleByte h l).getLsbD k = l.getLsbD k ∧ (nibbleByte h l).getLsbD (4 + k) = h.getLsbD k := by decide

/-- R132: bit k of `bits(p)` is block k's bit. -/
theorem positionBits_bit (order : Config.AccBitOrder) (p : Nat) (v : BlocksAccess) :
    ∀ k c, (k, c) ∈ [(0, v.b0), (1, v.b1), (2, v.b2), (3, v.b3)] →
      (positionBits order p v).getLsbD k = codeBit order p c := by
  intro k c hk
  unfold positionBits
  simp at hk
  rcases hk with ⟨rfl, rfl⟩ | ⟨rfl, rfl⟩ | ⟨rfl, rfl⟩ | ⟨rfl, rfl⟩ <;>
  · simp only [BitVec.getLsbD_append]
    simp

/-- R7: a 3-bit code is its three bits. -/
theorem accessCode_bits : ∀ c : AccessCode,
    BitVec.ofBool (c.getLsbD 2) ++ BitVec.ofBool (c.getLsbD 1) ++ BitVec.ofBool (c.getLsbD 0) = c := by decide

end Sys2Proof.Machine
end

