-- ==== Sys2Proof/Laws/Crc.lean ====
section
/-!
SUPPORT. `CRC_A` is linear (41_crc_engine.md R111, R120: only exclusive or and shifts).
-/

namespace Sys2Proof.Machine

@[simp] theorem crcA_nil : crcA [] = 0x6363#16 := rfl

/-- R111: the checksum goes on from where it stood. -/
theorem crcA_append (s t : List Byte) : crcA (s ++ t) = t.foldl crcAByte (crcA s) := by
  simp [crcA, List.foldl_append]

theorem crcAShift_xor (a b : BitVec 16) : crcAShift (a ^^^ b) = crcAShift a ^^^ crcAShift b := by
  have e : (a ^^^ b) >>> 1 = (a >>> 1) ^^^ (b >>> 1) := BitVec.ushiftRight_xor_distrib a b 1
  simp only [crcAShift, e, BitVec.getLsbD_xor]
  cases a.getLsbD 0 <;> cases b.getLsbD 0 <;> simp
  · rw [BitVec.xor_assoc]
  · rw [BitVec.xor_assoc, BitVec.xor_assoc, BitVec.xor_comm (33800#16)]
  · rw [BitVec.xor_assoc, ← BitVec.xor_assoc (33800#16), BitVec.xor_comm (33800#16) (b >>> 1), BitVec.xor_assoc,
      BitVec.xor_self]
    simp

theorem crcAShifts_xor (n : Nat) : ∀ a b : BitVec 16, crcAShifts n (a ^^^ b) = crcAShifts n a ^^^ crcAShifts n b := by
  induction n with
  | zero =>
    intro a b
    rfl
  | succ n ih =>
    intro a b
    simp only [crcAShifts, crcAShift_xor, ih]

end Sys2Proof.Machine
end

