-- ==== Sys2Proof/Laws/Decode.lean ====
section
/-!
SUPPORT. The fields of the encoded words (30_encoding.md R60, R61, R68, R70), each read back once.
-/

namespace Sys2Proof

/-! Command bytes (R64). -/

/-- A data byte is the command of a code when it is that code's byte and the command field holds it. -/
theorem isCommand_iff (p : Config.Parameters) (code : BitVec 4) (d : Byte) :
    isCommand p code d = true ↔ d = commandByte code ∧ d &&& ~~~p.cmdFieldMask = 0 := by
  simp only [isCommand, Bool.and_eq_true, beq_iff_eq]
  constructor
  · rintro ⟨h0, h1⟩
    have e : d = d &&& p.cmdFieldMask ||| d &&& ~~~p.cmdFieldMask := by
      apply BitVec.eq_of_getLsbD_eq
      intro k hk
      simp only [BitVec.getLsbD_or, BitVec.getLsbD_and, BitVec.getLsbD_not, hk, decide_true, Bool.true_and]
      cases d.getLsbD k <;> cases p.cmdFieldMask.getLsbD k <;> rfl
    rw [h0, h1] at e
    exact ⟨by simpa using e, h0⟩
  · rintro ⟨h1, h0⟩
    refine ⟨h0, ?_⟩
    rw [← h1]
    apply BitVec.eq_of_getLsbD_eq
    intro k hk
    have h := congrArg (fun v : Byte => v.getLsbD k) h0
    simp only [BitVec.getLsbD_and, BitVec.getLsbD_not, hk, decide_true, Bool.true_and] at h ⊢
    cases hd : d.getLsbD k <;> cases hm : p.cmdFieldMask.getLsbD k <;> simp_all

theorem commandByte_inj : ∀ a b : BitVec 4, commandByte a = commandByte b ↔ a = b := by decide

/-! Address bytes (R61). -/

theorem writeAddrByte_eq : ∀ a : RegAddr, writeAddrByte a.toNat = 0#1 ++ a ++ 0#1 := by decide

theorem readAddrByte_eq : ∀ a : RegAddr, readAddrByte a.toNat = 1#1 ++ a ++ 0#1 := by decide

/-- An address byte is its direction bit, its six address bits and its reserved bit. -/
theorem addrByte_split (b : Byte) :
    b = BitVec.ofBool (b.getLsbD 7) ++ b.extractLsb' 1 6 ++ BitVec.ofBool (b.getLsbD 0) := by
  revert b
  decide

/-! Fields of a frame word (R60). -/

@[simp] theorem frameIsRead_frameOfBytes (b d : Byte) : frameIsRead (frameOfBytes b d) = b.getLsbD 7 := by
  simp only [frameIsRead, frameOfBytes, BitVec.getLsbD_append]
  simp

@[simp] theorem frameReservedBit_frameOfBytes (b d : Byte) :
    frameReservedBit (frameOfBytes b d) = b.getLsbD 0 := by
  simp only [frameReservedBit, frameOfBytes, BitVec.getLsbD_append]
  simp

@[simp] theorem frameData_frameOfBytes (b d : Byte) : frameData (frameOfBytes b d) = d := by
  apply BitVec.eq_of_getLsbD_eq
  intro k hk
  simp only [frameData, frameOfBytes, BitVec.getLsbD_append, BitVec.getLsbD_extractLsb']
  simp [hk]

@[simp] theorem frameAddr_frameOfBytes (b d : Byte) : frameAddr (frameOfBytes b d) = b.extractLsb' 1 6 := by
  apply BitVec.eq_of_getLsbD_eq
  intro k hk
  have h8 : ¬ (9 + k < 8) := by omega
  have e : 9 + k - 8 = 1 + k := by omega
  simp only [frameAddr, frameOfBytes, BitVec.getLsbD_append, BitVec.getLsbD_extractLsb', h8, e]
  simp

/-- Every frame word is the word of two bytes. -/
theorem frameWord_split (w : FrameWord) : w = frameOfBytes (w.extractLsb' 8 8) (w.extractLsb' 0 8) := by
  apply BitVec.eq_of_getLsbD_eq
  intro k hk
  simp only [frameOfBytes, BitVec.getLsbD_append, BitVec.getLsbD_extractLsb']
  by_cases h : k < 8
  · simp [h]
  · have e : 8 + (k - 8) = k := by omega
    have h8 : k - 8 < 8 := by omega
    simp [h, e, h8]

/-- A write frame decodes by its register (R65). -/
theorem decode_writeFrame (p : Config.Parameters) (a : RegAddr) (d : Byte) :
    decode p (writeFrame a d) = .ok (decodeWrite p a d) := by
  have h : ∀ a : RegAddr, (writeAddrByte a.toNat).getLsbD 7 = false ∧ (writeAddrByte a.toNat).getLsbD 0 = false
      ∧ (writeAddrByte a.toNat).extractLsb' 1 6 = a := by decide
  obtain ⟨h7, h0, ha⟩ := h a
  simp only [writeFrame, decode, decodeFrame, frameReservedBit_frameOfBytes, frameIsRead_frameOfBytes,
    frameAddr_frameOfBytes, frameData_frameOfBytes, h7, h0, ha, Bool.false_eq_true, if_false]

/-- A read frame decodes by its register (R65). -/
theorem decode_readFrame (p : Config.Parameters) (a : RegAddr) (x : Byte) :
    decode p (readFrame a x) = .ok (decodeRead a x) := by
  have h : ∀ a : RegAddr, (readAddrByte a.toNat).getLsbD 7 = true ∧ (readAddrByte a.toNat).getLsbD 0 = false
      ∧ (readAddrByte a.toNat).extractLsb' 1 6 = a := by decide
  obtain ⟨h7, h0, ha⟩ := h a
  simp only [readFrame, decode, decodeFrame, frameReservedBit_frameOfBytes, frameIsRead_frameOfBytes,
    frameAddr_frameOfBytes, frameData_frameOfBytes, h7, h0, ha, Bool.false_eq_true, if_false, if_true]

/-! Fields of a helper word (R70). -/

theorem helperWord_readAddr (a : RegAddr) (x d : Byte) : (helperWord a x d).extractLsb' 25 6 = a := by
  apply BitVec.eq_of_getLsbD_eq
  intro k hk
  simp only [helperWord, BitVec.getLsbD_append, BitVec.getLsbD_extractLsb']
  interval_cases k <;> simp

theorem helperWord_writeAddr (a : RegAddr) (x d : Byte) : (helperWord a x d).extractLsb' 9 6 = a := by
  apply BitVec.eq_of_getLsbD_eq
  intro k hk
  simp only [helperWord, BitVec.getLsbD_append, BitVec.getLsbD_extractLsb']
  interval_cases k <;> simp

theorem helperWord_ignored (a : RegAddr) (x d : Byte) : (helperWord a x d).extractLsb' 16 8 = x := by
  apply BitVec.eq_of_getLsbD_eq
  intro k hk
  simp only [helperWord, BitVec.getLsbD_append, BitVec.getLsbD_extractLsb']
  interval_cases k <;> simp

theorem helperWord_data (a : RegAddr) (x d : Byte) : (helperWord a x d).extractLsb' 0 8 = d := by
  apply BitVec.eq_of_getLsbD_eq
  intro k hk
  simp only [helperWord, BitVec.getLsbD_append, BitVec.getLsbD_extractLsb']
  interval_cases k <;> simp

theorem isHelperWord_helperWord (a : RegAddr) (x d : Byte) : isHelperWord (helperWord a x d) = true := by
  simp only [isHelperWord, helperWord_readAddr, helperWord_writeAddr]
  simp only [helperWord, BitVec.getLsbD_append]
  simp

/-! Codec words (R68). -/

theorem decodeCodec_encodeAccEnc (b0 b1 b2 b3 : AccessCode) (x : BitVec 20) :
    decodeCodec (encodeAccEnc b0 b1 b2 b3 x) = .accEnc b0 b1 b2 b3 x := by
  have h : (encodeAccEnc b0 b1 b2 b3 x).getLsbD 32 = false := by
    simp only [encodeAccEnc, BitVec.getLsbD_append]
    simp
  simp only [decodeCodec, h, Bool.false_eq_true, if_false, Instr.accEnc.injEq]
  refine ⟨?_, ?_, ?_, ?_, ?_⟩ <;>
  · apply BitVec.eq_of_getLsbD_eq
    intro k hk
    simp only [encodeAccEnc, BitVec.getLsbD_append, BitVec.getLsbD_extractLsb']
    interval_cases k <;> simp

theorem decodeCodec_encodeAccDec (p q r s : Byte) : decodeCodec (encodeAccDec p q r s) = .accDec p q r s := by
  have h : (encodeAccDec p q r s).getLsbD 32 = true := by
    simp only [encodeAccDec, BitVec.getLsbD_append]
    simp
  simp only [decodeCodec, h, if_true, Instr.accDec.injEq]
  refine ⟨?_, ?_, ?_, ?_⟩ <;>
  · apply BitVec.eq_of_getLsbD_eq
    intro k hk
    simp only [encodeAccDec, BitVec.getLsbD_append, BitVec.getLsbD_extractLsb']
    interval_cases k <;> simp

/-! Table rows. -/

/-- A row covers a frame word when it covers each of its bytes. -/
theorem frameOfBytes_and_eq (b d mh ml vh vl : Byte) :
    frameOfBytes b d &&& frameOfBytes mh ml = frameOfBytes vh vl ↔ b &&& mh = vh ∧ d &&& ml = vl := by
  have e : frameOfBytes b d &&& frameOfBytes mh ml = frameOfBytes (b &&& mh) (d &&& ml) := by
    apply BitVec.eq_of_getLsbD_eq
    intro k hk
    simp only [frameOfBytes, BitVec.getLsbD_and, BitVec.getLsbD_append]
    split <;> rfl
  rw [e]
  constructor
  · intro h
    have hh : ∀ p q : Byte, (frameOfBytes p q).extractLsb' 8 8 = p := by
      intro p q
      apply BitVec.eq_of_getLsbD_eq
      intro k hk
      simp only [frameOfBytes, BitVec.getLsbD_extractLsb', BitVec.getLsbD_append]
      simp [hk]
    have h1 := congrArg (BitVec.extractLsb' 8 8) h
    have h2 := congrArg frameData h
    rw [hh, hh] at h1
    simp only [frameData_frameOfBytes] at h2
    exact ⟨h1, h2⟩
  · rintro ⟨rfl, rfl⟩
    rfl

end Sys2Proof
end

