-- ==== Sys2Proof/Laws/State.lean ====
section
/-!
SUPPORT. One lemma for each field under each named update of the state, so that no later proof unfolds a record update.
-/

namespace Sys2Proof.Machine

variable (s : State)

/-! R81: the reply of a frame. -/

@[simp] theorem State.answer_cmd (v : Byte) : (s.answer v).cmd = s.cmd := rfl
@[simp] theorem State.answer_crcIrq (v : Byte) : (s.answer v).crcIrq = s.crcIrq := rfl
@[simp] theorem State.answer_bufOvfl (v : Byte) : (s.answer v).bufOvfl = s.bufOvfl := rfl
@[simp] theorem State.answer_fifo (v : Byte) : (s.answer v).fifo = s.fifo := rfl
@[simp] theorem State.answer_crcResult (v : Byte) : (s.answer v).crcResult = s.crcResult := rfl
@[simp] theorem State.answer_crcBusy (v : Byte) : (s.answer v).crcBusy = s.crcBusy := rfl
@[simp] theorem State.answer_crcPoison (v : Byte) : (s.answer v).crcPoison = s.crcPoison := rfl
@[simp] theorem State.answer_engineWait (v : Byte) : (s.answer v).engineWait = s.engineWait := rfl
@[simp] theorem State.answer_draws (v : Byte) : (s.answer v).draws = s.draws + 2 := rfl
@[simp] theorem State.answer_params (v : Byte) : (s.answer v).params = s.params := rfl
@[simp] theorem State.answer_reply (v : Byte) : (s.answer v).reply = { byte0 := Config.freeByte s.draws, byte1 := v } := rfl
@[simp] theorem State.answer_codecOut (v : Byte) : (s.answer v).codecOut = s.codecOut := rfl
@[simp] theorem State.answer_hostResult (v : Byte) : (s.answer v).hostResult = s.hostResult := rfl
@[simp] theorem State.answer_program (v : Byte) : (s.answer v).program = s.program := rfl
@[simp] theorem State.answer_hostIndex (v : Byte) : (s.answer v).hostIndex = s.hostIndex := rfl

/-! R81: the reply of a write frame. -/

@[simp] theorem State.answerWrite_cmd : s.answerWrite.cmd = s.cmd := rfl
@[simp] theorem State.answerWrite_crcIrq : s.answerWrite.crcIrq = s.crcIrq := rfl
@[simp] theorem State.answerWrite_bufOvfl : s.answerWrite.bufOvfl = s.bufOvfl := rfl
@[simp] theorem State.answerWrite_fifo : s.answerWrite.fifo = s.fifo := rfl
@[simp] theorem State.answerWrite_crcResult : s.answerWrite.crcResult = s.crcResult := rfl
@[simp] theorem State.answerWrite_crcBusy : s.answerWrite.crcBusy = s.crcBusy := rfl
@[simp] theorem State.answerWrite_crcPoison : s.answerWrite.crcPoison = s.crcPoison := rfl
@[simp] theorem State.answerWrite_engineWait : s.answerWrite.engineWait = s.engineWait := rfl
@[simp] theorem State.answerWrite_draws : s.answerWrite.draws = s.draws + 2 := rfl
@[simp] theorem State.answerWrite_params : s.answerWrite.params = s.params := rfl
@[simp] theorem State.answerWrite_reply :
    s.answerWrite.reply = { byte0 := Config.freeByte s.draws, byte1 := s.unspecByte } := rfl
@[simp] theorem State.answerWrite_codecOut : s.answerWrite.codecOut = s.codecOut := rfl
@[simp] theorem State.answerWrite_hostResult : s.answerWrite.hostResult = s.hostResult := rfl
@[simp] theorem State.answerWrite_program : s.answerWrite.program = s.program := rfl
@[simp] theorem State.answerWrite_hostIndex : s.answerWrite.hostIndex = s.hostIndex := rfl

/-! R115: an access to the FIFO. -/

@[simp] theorem State.poisonIfBusy_cmd : s.poisonIfBusy.cmd = s.cmd := rfl
@[simp] theorem State.poisonIfBusy_crcIrq : s.poisonIfBusy.crcIrq = s.crcIrq := rfl
@[simp] theorem State.poisonIfBusy_bufOvfl : s.poisonIfBusy.bufOvfl = s.bufOvfl := rfl
@[simp] theorem State.poisonIfBusy_fifo : s.poisonIfBusy.fifo = s.fifo := rfl
@[simp] theorem State.poisonIfBusy_crcResult : s.poisonIfBusy.crcResult = s.crcResult := rfl
@[simp] theorem State.poisonIfBusy_crcBusy : s.poisonIfBusy.crcBusy = s.crcBusy := rfl
@[simp] theorem State.poisonIfBusy_crcPoison : s.poisonIfBusy.crcPoison = (s.crcPoison || s.crcBusy) := rfl
@[simp] theorem State.poisonIfBusy_engineWait : s.poisonIfBusy.engineWait = s.engineWait := rfl
@[simp] theorem State.poisonIfBusy_draws : s.poisonIfBusy.draws = s.draws := rfl
@[simp] theorem State.poisonIfBusy_params : s.poisonIfBusy.params = s.params := rfl
@[simp] theorem State.poisonIfBusy_reply : s.poisonIfBusy.reply = s.reply := rfl
@[simp] theorem State.poisonIfBusy_codecOut : s.poisonIfBusy.codecOut = s.codecOut := rfl
@[simp] theorem State.poisonIfBusy_hostResult : s.poisonIfBusy.hostResult = s.hostResult := rfl
@[simp] theorem State.poisonIfBusy_program : s.poisonIfBusy.program = s.program := rfl
@[simp] theorem State.poisonIfBusy_hostIndex : s.poisonIfBusy.hostIndex = s.hostIndex := rfl

/-! R88: a byte written to the FIFO. -/

@[simp] theorem State.pushByte_cmd (d : Byte) : (s.pushByte d).cmd = s.cmd := by
  unfold State.pushByte; split <;> rfl
@[simp] theorem State.pushByte_crcIrq (d : Byte) : (s.pushByte d).crcIrq = s.crcIrq := by
  unfold State.pushByte; split <;> rfl
@[simp] theorem State.pushByte_bufOvfl (d : Byte) :
    (s.pushByte d).bufOvfl = (s.bufOvfl || s.fifo.length == s.params.fifoCapacity) := by
  unfold State.pushByte; split <;> simp_all
@[simp] theorem State.pushByte_fifo (d : Byte) :
    (s.pushByte d).fifo = if s.fifo.length = s.params.fifoCapacity then s.fifo else s.fifo ++ [d] := by
  unfold State.pushByte; split <;> simp_all
@[simp] theorem State.pushByte_crcResult (d : Byte) : (s.pushByte d).crcResult = s.crcResult := by
  unfold State.pushByte; split <;> rfl
@[simp] theorem State.pushByte_crcBusy (d : Byte) : (s.pushByte d).crcBusy = s.crcBusy := by
  unfold State.pushByte; split <;> rfl
@[simp] theorem State.pushByte_crcPoison (d : Byte) : (s.pushByte d).crcPoison = s.crcPoison := by
  unfold State.pushByte; split <;> rfl
@[simp] theorem State.pushByte_engineWait (d : Byte) : (s.pushByte d).engineWait = s.engineWait := by
  unfold State.pushByte; split <;> rfl
@[simp] theorem State.pushByte_draws (d : Byte) : (s.pushByte d).draws = s.draws := by
  unfold State.pushByte; split <;> rfl
@[simp] theorem State.pushByte_params (d : Byte) : (s.pushByte d).params = s.params := by
  unfold State.pushByte; split <;> rfl
@[simp] theorem State.pushByte_reply (d : Byte) : (s.pushByte d).reply = s.reply := by
  unfold State.pushByte; split <;> rfl
@[simp] theorem State.pushByte_codecOut (d : Byte) : (s.pushByte d).codecOut = s.codecOut := by
  unfold State.pushByte; split <;> rfl
@[simp] theorem State.pushByte_hostResult (d : Byte) : (s.pushByte d).hostResult = s.hostResult := by
  unfold State.pushByte; split <;> rfl
@[simp] theorem State.pushByte_program (d : Byte) : (s.pushByte d).program = s.program := by
  unfold State.pushByte; split <;> rfl
@[simp] theorem State.pushByte_hostIndex (d : Byte) : (s.pushByte d).hostIndex = s.hostIndex := by
  unfold State.pushByte; split <;> rfl

/-! R89: the oldest byte removed. -/

@[simp] theorem State.dropHead_cmd : s.dropHead.cmd = s.cmd := rfl
@[simp] theorem State.dropHead_crcIrq : s.dropHead.crcIrq = s.crcIrq := rfl
@[simp] theorem State.dropHead_bufOvfl : s.dropHead.bufOvfl = s.bufOvfl := rfl
@[simp] theorem State.dropHead_fifo : s.dropHead.fifo = s.fifo.tail := rfl
@[simp] theorem State.dropHead_crcResult : s.dropHead.crcResult = s.crcResult := rfl
@[simp] theorem State.dropHead_crcBusy : s.dropHead.crcBusy = s.crcBusy := rfl
@[simp] theorem State.dropHead_crcPoison : s.dropHead.crcPoison = s.crcPoison := rfl
@[simp] theorem State.dropHead_engineWait : s.dropHead.engineWait = s.engineWait := rfl
@[simp] theorem State.dropHead_draws : s.dropHead.draws = s.draws := rfl
@[simp] theorem State.dropHead_params : s.dropHead.params = s.params := rfl
@[simp] theorem State.dropHead_reply : s.dropHead.reply = s.reply := rfl
@[simp] theorem State.dropHead_codecOut : s.dropHead.codecOut = s.codecOut := rfl
@[simp] theorem State.dropHead_hostResult : s.dropHead.hostResult = s.hostResult := rfl
@[simp] theorem State.dropHead_program : s.dropHead.program = s.program := rfl
@[simp] theorem State.dropHead_hostIndex : s.dropHead.hostIndex = s.hostIndex := rfl

/-! R90: the flush. -/

@[simp] theorem State.flushFifo_cmd : s.flushFifo.cmd = s.cmd := rfl
@[simp] theorem State.flushFifo_crcIrq : s.flushFifo.crcIrq = s.crcIrq := rfl
@[simp] theorem State.flushFifo_bufOvfl : s.flushFifo.bufOvfl = false := rfl
@[simp] theorem State.flushFifo_fifo : s.flushFifo.fifo = [] := rfl
@[simp] theorem State.flushFifo_crcResult : s.flushFifo.crcResult = s.crcResult := rfl
@[simp] theorem State.flushFifo_crcBusy : s.flushFifo.crcBusy = s.crcBusy := rfl
@[simp] theorem State.flushFifo_crcPoison : s.flushFifo.crcPoison = s.crcPoison := rfl
@[simp] theorem State.flushFifo_engineWait : s.flushFifo.engineWait = s.engineWait := rfl
@[simp] theorem State.flushFifo_draws : s.flushFifo.draws = s.draws := rfl
@[simp] theorem State.flushFifo_params : s.flushFifo.params = s.params := rfl
@[simp] theorem State.flushFifo_reply : s.flushFifo.reply = s.reply := rfl
@[simp] theorem State.flushFifo_codecOut : s.flushFifo.codecOut = s.codecOut := rfl
@[simp] theorem State.flushFifo_hostResult : s.flushFifo.hostResult = s.hostResult := rfl
@[simp] theorem State.flushFifo_program : s.flushFifo.program = s.program := rfl
@[simp] theorem State.flushFifo_hostIndex : s.flushFifo.hostIndex = s.hostIndex := rfl

/-! R112: the idle command. -/

@[simp] theorem State.issueIdle_cmd : s.issueIdle.cmd = s.params.cmdIdle := rfl
@[simp] theorem State.issueIdle_crcIrq : s.issueIdle.crcIrq = s.crcIrq := rfl
@[simp] theorem State.issueIdle_bufOvfl : s.issueIdle.bufOvfl = s.bufOvfl := rfl
@[simp] theorem State.issueIdle_fifo : s.issueIdle.fifo = if s.crcBusy then unspecFifo s.params.fifoCapacity s.draws else s.fifo := rfl
@[simp] theorem State.issueIdle_crcResult : s.issueIdle.crcResult = s.crcResult := rfl
@[simp] theorem State.issueIdle_crcBusy : s.issueIdle.crcBusy = false := rfl
@[simp] theorem State.issueIdle_crcPoison : s.issueIdle.crcPoison = false := rfl
@[simp] theorem State.issueIdle_engineWait : s.issueIdle.engineWait = 0 := rfl
@[simp] theorem State.issueIdle_draws : s.issueIdle.draws = s.draws := rfl
@[simp] theorem State.issueIdle_params : s.issueIdle.params = s.params := rfl
@[simp] theorem State.issueIdle_reply : s.issueIdle.reply = s.reply := rfl
@[simp] theorem State.issueIdle_codecOut : s.issueIdle.codecOut = s.codecOut := rfl
@[simp] theorem State.issueIdle_hostResult : s.issueIdle.hostResult = s.hostResult := rfl
@[simp] theorem State.issueIdle_program : s.issueIdle.program = s.program := rfl
@[simp] theorem State.issueIdle_hostIndex : s.issueIdle.hostIndex = s.hostIndex := rfl

/-! R113: the CRC-calculate command. -/

@[simp] theorem State.issueCalcCrc_cmd : s.issueCalcCrc.cmd = s.params.cmdCalcCrc := rfl
@[simp] theorem State.issueCalcCrc_crcIrq : s.issueCalcCrc.crcIrq = s.crcIrq := rfl
@[simp] theorem State.issueCalcCrc_bufOvfl : s.issueCalcCrc.bufOvfl = s.bufOvfl := rfl
@[simp] theorem State.issueCalcCrc_fifo : s.issueCalcCrc.fifo = s.fifo := rfl
@[simp] theorem State.issueCalcCrc_crcResult : s.issueCalcCrc.crcResult = s.crcResult := rfl
@[simp] theorem State.issueCalcCrc_crcBusy : s.issueCalcCrc.crcBusy = true := rfl
@[simp] theorem State.issueCalcCrc_crcPoison : s.issueCalcCrc.crcPoison = false := rfl
@[simp] theorem State.issueCalcCrc_engineWait : s.issueCalcCrc.engineWait = Config.engineDelay s.draws := rfl
@[simp] theorem State.issueCalcCrc_draws : s.issueCalcCrc.draws = s.draws := rfl
@[simp] theorem State.issueCalcCrc_params : s.issueCalcCrc.params = s.params := rfl
@[simp] theorem State.issueCalcCrc_reply : s.issueCalcCrc.reply = s.reply := rfl
@[simp] theorem State.issueCalcCrc_codecOut : s.issueCalcCrc.codecOut = s.codecOut := rfl
@[simp] theorem State.issueCalcCrc_hostResult : s.issueCalcCrc.hostResult = s.hostResult := rfl
@[simp] theorem State.issueCalcCrc_program : s.issueCalcCrc.program = s.program := rfl
@[simp] theorem State.issueCalcCrc_hostIndex : s.issueCalcCrc.hostIndex = s.hostIndex := rfl

/-! R114: the completion. -/

@[simp] theorem State.crcComplete_cmd :
    s.crcComplete.cmd = if s.params.crcSelfTerminates then s.params.cmdIdle else s.cmd := rfl
@[simp] theorem State.crcComplete_crcIrq : s.crcComplete.crcIrq = true := rfl
@[simp] theorem State.crcComplete_bufOvfl : s.crcComplete.bufOvfl = s.bufOvfl := rfl
@[simp] theorem State.crcComplete_fifo : s.crcComplete.fifo = s.completionFifo := rfl
@[simp] theorem State.crcComplete_crcResult : s.crcComplete.crcResult = some s.completionResult := rfl
@[simp] theorem State.crcComplete_crcBusy : s.crcComplete.crcBusy = false := rfl
@[simp] theorem State.crcComplete_crcPoison : s.crcComplete.crcPoison = false := rfl
@[simp] theorem State.crcComplete_engineWait : s.crcComplete.engineWait = 0 := rfl
@[simp] theorem State.crcComplete_draws : s.crcComplete.draws = s.draws + 1 := rfl
@[simp] theorem State.crcComplete_params : s.crcComplete.params = s.params := rfl
@[simp] theorem State.crcComplete_reply : s.crcComplete.reply = s.reply := rfl
@[simp] theorem State.crcComplete_codecOut : s.crcComplete.codecOut = s.codecOut := rfl
@[simp] theorem State.crcComplete_hostResult : s.crcComplete.hostResult = s.hostResult := rfl
@[simp] theorem State.crcComplete_program : s.crcComplete.program = s.program := rfl
@[simp] theorem State.crcComplete_hostIndex : s.crcComplete.hostIndex = s.hostIndex := rfl

/-! R119: one host operation passes. -/

@[simp] theorem State.hostTurn_cmd : s.hostTurn.cmd = s.cmd := rfl
@[simp] theorem State.hostTurn_crcIrq : s.hostTurn.crcIrq = s.crcIrq := rfl
@[simp] theorem State.hostTurn_bufOvfl : s.hostTurn.bufOvfl = s.bufOvfl := rfl
@[simp] theorem State.hostTurn_fifo : s.hostTurn.fifo = s.fifo := rfl
@[simp] theorem State.hostTurn_crcResult : s.hostTurn.crcResult = s.crcResult := rfl
@[simp] theorem State.hostTurn_crcBusy : s.hostTurn.crcBusy = s.crcBusy := rfl
@[simp] theorem State.hostTurn_crcPoison : s.hostTurn.crcPoison = s.crcPoison := rfl
@[simp] theorem State.hostTurn_engineWait : s.hostTurn.engineWait = s.engineWait - 1 := rfl
@[simp] theorem State.hostTurn_draws : s.hostTurn.draws = s.draws := rfl
@[simp] theorem State.hostTurn_params : s.hostTurn.params = s.params := rfl
@[simp] theorem State.hostTurn_reply : s.hostTurn.reply = s.reply := rfl
@[simp] theorem State.hostTurn_codecOut : s.hostTurn.codecOut = s.codecOut := rfl
@[simp] theorem State.hostTurn_hostResult : s.hostTurn.hostResult = s.hostResult := rfl
@[simp] theorem State.hostTurn_program : s.hostTurn.program = s.program := rfl
@[simp] theorem State.hostTurn_hostIndex : s.hostTurn.hostIndex = s.hostIndex := rfl

/-! R84: a write of DivIrqReg. -/

@[simp] theorem State.writeDivIrq_cmd (d : Byte) : (s.writeDivIrq d).cmd = s.cmd := rfl
@[simp] theorem State.writeDivIrq_crcIrq (d : Byte) :
    (s.writeDivIrq d).crcIrq = crcIrqAfterWrite s.params d s.crcIrq := rfl
@[simp] theorem State.writeDivIrq_bufOvfl (d : Byte) : (s.writeDivIrq d).bufOvfl = s.bufOvfl := rfl
@[simp] theorem State.writeDivIrq_fifo (d : Byte) : (s.writeDivIrq d).fifo = s.fifo := rfl
@[simp] theorem State.writeDivIrq_crcResult (d : Byte) : (s.writeDivIrq d).crcResult = s.crcResult := rfl
@[simp] theorem State.writeDivIrq_crcBusy (d : Byte) : (s.writeDivIrq d).crcBusy = s.crcBusy := rfl
@[simp] theorem State.writeDivIrq_crcPoison (d : Byte) : (s.writeDivIrq d).crcPoison = s.crcPoison := rfl
@[simp] theorem State.writeDivIrq_engineWait (d : Byte) : (s.writeDivIrq d).engineWait = s.engineWait := rfl
@[simp] theorem State.writeDivIrq_draws (d : Byte) : (s.writeDivIrq d).draws = s.draws := rfl
@[simp] theorem State.writeDivIrq_params (d : Byte) : (s.writeDivIrq d).params = s.params := rfl
@[simp] theorem State.writeDivIrq_reply (d : Byte) : (s.writeDivIrq d).reply = s.reply := rfl
@[simp] theorem State.writeDivIrq_codecOut (d : Byte) : (s.writeDivIrq d).codecOut = s.codecOut := rfl
@[simp] theorem State.writeDivIrq_hostResult (d : Byte) : (s.writeDivIrq d).hostResult = s.hostResult := rfl
@[simp] theorem State.writeDivIrq_program (d : Byte) : (s.writeDivIrq d).program = s.program := rfl
@[simp] theorem State.writeDivIrq_hostIndex (d : Byte) : (s.writeDivIrq d).hostIndex = s.hostIndex := rfl

/-! R161: the reset event. -/

@[simp] theorem State.resetEvent_cmd : s.resetEvent.cmd = s.params.cmdIdle := rfl
@[simp] theorem State.resetEvent_crcIrq : s.resetEvent.crcIrq = false := rfl
@[simp] theorem State.resetEvent_bufOvfl : s.resetEvent.bufOvfl = false := rfl
@[simp] theorem State.resetEvent_fifo : s.resetEvent.fifo = [] := rfl
@[simp] theorem State.resetEvent_crcResult : s.resetEvent.crcResult = none := rfl
@[simp] theorem State.resetEvent_crcBusy : s.resetEvent.crcBusy = false := rfl
@[simp] theorem State.resetEvent_crcPoison : s.resetEvent.crcPoison = false := rfl
@[simp] theorem State.resetEvent_engineWait : s.resetEvent.engineWait = 0 := rfl
@[simp] theorem State.resetEvent_draws : s.resetEvent.draws = s.draws := rfl
@[simp] theorem State.resetEvent_params : s.resetEvent.params = s.params := rfl
@[simp] theorem State.resetEvent_reply : s.resetEvent.reply = s.reply := rfl
@[simp] theorem State.resetEvent_codecOut : s.resetEvent.codecOut = s.codecOut := rfl
@[simp] theorem State.resetEvent_hostResult : s.resetEvent.hostResult = s.hostResult := rfl
@[simp] theorem State.resetEvent_program : s.resetEvent.program = s.program := rfl
@[simp] theorem State.resetEvent_hostIndex : s.resetEvent.hostIndex = s.hostIndex := rfl

/-! R25: the host's index. -/

@[simp] theorem State.advance_cmd : s.advance.cmd = s.cmd := rfl
@[simp] theorem State.advance_crcIrq : s.advance.crcIrq = s.crcIrq := rfl
@[simp] theorem State.advance_bufOvfl : s.advance.bufOvfl = s.bufOvfl := rfl
@[simp] theorem State.advance_fifo : s.advance.fifo = s.fifo := rfl
@[simp] theorem State.advance_crcResult : s.advance.crcResult = s.crcResult := rfl
@[simp] theorem State.advance_crcBusy : s.advance.crcBusy = s.crcBusy := rfl
@[simp] theorem State.advance_crcPoison : s.advance.crcPoison = s.crcPoison := rfl
@[simp] theorem State.advance_engineWait : s.advance.engineWait = s.engineWait := rfl
@[simp] theorem State.advance_draws : s.advance.draws = s.draws := rfl
@[simp] theorem State.advance_params : s.advance.params = s.params := rfl
@[simp] theorem State.advance_reply : s.advance.reply = s.reply := rfl
@[simp] theorem State.advance_codecOut : s.advance.codecOut = s.codecOut := rfl
@[simp] theorem State.advance_hostResult : s.advance.hostResult = s.hostResult := rfl
@[simp] theorem State.advance_program : s.advance.program = s.program := rfl
@[simp] theorem State.advance_hostIndex : s.advance.hostIndex = s.hostIndex + 1 := rfl

/-! What a pseudo-operation returned. -/

@[simp] theorem State.setHostResult_cmd (r : HostResult) : (s.setHostResult r).cmd = s.cmd := rfl
@[simp] theorem State.setHostResult_crcIrq (r : HostResult) : (s.setHostResult r).crcIrq = s.crcIrq := rfl
@[simp] theorem State.setHostResult_bufOvfl (r : HostResult) : (s.setHostResult r).bufOvfl = s.bufOvfl := rfl
@[simp] theorem State.setHostResult_fifo (r : HostResult) : (s.setHostResult r).fifo = s.fifo := rfl
@[simp] theorem State.setHostResult_crcResult (r : HostResult) : (s.setHostResult r).crcResult = s.crcResult := rfl
@[simp] theorem State.setHostResult_crcBusy (r : HostResult) : (s.setHostResult r).crcBusy = s.crcBusy := rfl
@[simp] theorem State.setHostResult_crcPoison (r : HostResult) : (s.setHostResult r).crcPoison = s.crcPoison := rfl
@[simp] theorem State.setHostResult_engineWait (r : HostResult) : (s.setHostResult r).engineWait = s.engineWait := rfl
@[simp] theorem State.setHostResult_draws (r : HostResult) : (s.setHostResult r).draws = s.draws := rfl
@[simp] theorem State.setHostResult_params (r : HostResult) : (s.setHostResult r).params = s.params := rfl
@[simp] theorem State.setHostResult_reply (r : HostResult) : (s.setHostResult r).reply = s.reply := rfl
@[simp] theorem State.setHostResult_codecOut (r : HostResult) : (s.setHostResult r).codecOut = s.codecOut := rfl
@[simp] theorem State.setHostResult_hostResult (r : HostResult) : (s.setHostResult r).hostResult = r := rfl
@[simp] theorem State.setHostResult_program (r : HostResult) : (s.setHostResult r).program = s.program := rfl
@[simp] theorem State.setHostResult_hostIndex (r : HostResult) : (s.setHostResult r).hostIndex = s.hostIndex := rfl

/-! R68: the result of a codec transaction. -/

@[simp] theorem State.setCodecOut_cmd (v : BitVec 32) : (s.setCodecOut v).cmd = s.cmd := rfl
@[simp] theorem State.setCodecOut_crcIrq (v : BitVec 32) : (s.setCodecOut v).crcIrq = s.crcIrq := rfl
@[simp] theorem State.setCodecOut_bufOvfl (v : BitVec 32) : (s.setCodecOut v).bufOvfl = s.bufOvfl := rfl
@[simp] theorem State.setCodecOut_fifo (v : BitVec 32) : (s.setCodecOut v).fifo = s.fifo := rfl
@[simp] theorem State.setCodecOut_crcResult (v : BitVec 32) : (s.setCodecOut v).crcResult = s.crcResult := rfl
@[simp] theorem State.setCodecOut_crcBusy (v : BitVec 32) : (s.setCodecOut v).crcBusy = s.crcBusy := rfl
@[simp] theorem State.setCodecOut_crcPoison (v : BitVec 32) : (s.setCodecOut v).crcPoison = s.crcPoison := rfl
@[simp] theorem State.setCodecOut_engineWait (v : BitVec 32) : (s.setCodecOut v).engineWait = s.engineWait := rfl
@[simp] theorem State.setCodecOut_draws (v : BitVec 32) : (s.setCodecOut v).draws = s.draws := rfl
@[simp] theorem State.setCodecOut_params (v : BitVec 32) : (s.setCodecOut v).params = s.params := rfl
@[simp] theorem State.setCodecOut_reply (v : BitVec 32) : (s.setCodecOut v).reply = s.reply := rfl
@[simp] theorem State.setCodecOut_codecOut (v : BitVec 32) : (s.setCodecOut v).codecOut = v := rfl
@[simp] theorem State.setCodecOut_hostResult (v : BitVec 32) : (s.setCodecOut v).hostResult = s.hostResult := rfl
@[simp] theorem State.setCodecOut_program (v : BitVec 32) : (s.setCodecOut v).program = s.program := rfl
@[simp] theorem State.setCodecOut_hostIndex (v : BitVec 32) : (s.setCodecOut v).hostIndex = s.hostIndex := rfl

/-! The draw of a frame depends on the counter alone. -/

theorem State.unspecByte_eq : s.unspecByte = Config.freeByte (s.draws + 1) := rfl

end Sys2Proof.Machine
end

