-- ==== Sys2Proof/Laws/Ops.lean ====
section
/-!
SUPPORT. What each shared operation can do, said once, for later proofs to cite.
-/

namespace Sys2Proof.Machine

/-! Sequencing. -/

@[simp] theorem andThen_next (s : State) (f : State → StepOutcome) : andThen (.next s) f = f s := rfl

@[simp] theorem andThen_refused (r : Refusal) (f : State → StepOutcome) : andThen (.refused r) f = .refused r := rfl

@[simp] theorem andThen_fault (r : Fault) (f : State → StepOutcome) : andThen (.fault r) f = .fault r := rfl

/-- A sequence ends in a next state exactly when both parts do. -/
theorem andThen_eq_next (o : StepOutcome) (f : State → StepOutcome) (t : State) :
    andThen o f = .next t ↔ ∃ s, o = .next s ∧ f s = .next t := by
  cases o <;> simp [andThen]

/-- A sequence faults exactly when a part does. -/
theorem andThen_eq_fault (o : StepOutcome) (f : State → StepOutcome) (r : Fault) :
    andThen o f = .fault r ↔ o = .fault r ∨ ∃ s, o = .next s ∧ f s = .fault r := by
  cases o <;> simp [andThen]

/-! Bits of bytes. -/

theorem ownBits_getLsbD (mask owned free : Byte) (k : Nat) :
    (ownBits mask owned free).getLsbD k = if mask.getLsbD k then owned.getLsbD k else free.getLsbD k := by
  simp only [ownBits, BitVec.getLsbD_or, BitVec.getLsbD_and, BitVec.getLsbD_not]
  by_cases hk : k < 8
  · cases mask.getLsbD k <;> simp [hk]
  · simp [BitVec.getLsbD_of_ge _ k (by omega : 8 ≤ k)]

/-- On the bits of the mask a read value is the block's. -/
theorem ownBits_agreesOn (mask owned free : Byte) : AgreesOn mask owned (ownBits mask owned free) := by
  intro k hk
  simp [ownBits_getLsbD, hk]

/-- A one-bit mask has its bit and no other. -/
theorem bitMask_getLsbD : ∀ (b : Fin 8) (k : Nat), k < 8 → (Config.bitMask b).getLsbD k = decide (k = b.val) := by decide

theorem bitMask_self : ∀ b : Fin 8, (Config.bitMask b).getLsbD b = true := by decide

@[simp] theorem bitMask_getElem_self : ∀ b : Fin 8, (Config.bitMask b)[b.val] = true := by decide

theorem and_bitMask_eq_zero : ∀ (b : Fin 8) (d : Byte), d &&& Config.bitMask b = 0 ↔ d.getLsbD b = false := by
  intro b d
  constructor
  · intro h
    have e := congrArg (fun v : Byte => v.getLsbD b) h
    simpa using e
  · intro h
    apply BitVec.eq_of_getLsbD_eq
    intro k hk
    by_cases e : k = b.val
    · subst e
      rw [BitVec.getLsbD_and, h]
      simp
    · simp [bitMask_getLsbD b k hk, e]

theorem and_crcMask_eq_zero (p : Config.Parameters) (d : Byte) :
    d &&& p.divIrqCrcMask = 0 ↔ d.getLsbD p.divIrqCrcBit = false := and_bitMask_eq_zero _ _

theorem and_flushMask_eq_zero (p : Config.Parameters) (d : Byte) :
    d &&& p.fifoFlushMask = 0 ↔ d.getLsbD p.fifoFlushBit = false := and_bitMask_eq_zero _ _

/-- R84, in bits. -/
theorem crcIrqAfterWrite_eq (p : Config.Parameters) (d : Byte) (irq : Bool) :
    crcIrqAfterWrite p d irq =
      match p.divIrqWriteRule with
      | .w0c => irq && d.getLsbD p.divIrqCrcBit
      | .set2 => if d.getLsbD p.divIrqCrcBit then d.getLsbD 7 else irq := by
  unfold crcIrqAfterWrite
  cases p.divIrqWriteRule <;> simp only [and_crcMask_eq_zero] <;> cases d.getLsbD p.divIrqCrcBit <;> simp

/-- R85: the CRC bit of the value of DivIrqReg. -/
theorem divIrqValue_bit (s : State) : s.divIrqValue.getLsbD s.params.divIrqCrcBit = s.crcIrq := by
  rw [State.divIrqValue, ownBits_getLsbD]
  cases s.crcIrq <;> simp [flagByte, Config.Parameters.divIrqCrcMask]

/-- R87: the overflow bit of the value of ErrorReg. -/
theorem errorValue_bit (s : State) : s.errorValue.getLsbD s.params.errBufOvflBit = s.bufOvfl := by
  rw [State.errorValue, ownBits_getLsbD]
  cases s.bufOvfl <;> simp [flagByte, Config.Parameters.errBufOvflMask]

/-- R83: the command field of the value of CommandReg. -/
theorem commandValue_agreesOn (s : State) : AgreesOn s.params.cmdFieldMask (commandByte s.cmd) s.commandValue :=
  ownBits_agreesOn _ _ _

/-- R83: with the default mask the command field is the low nibble. -/
theorem commandValue_field (s : State) (h : s.params.cmdFieldMask = 0x0F) : s.commandValue.extractLsb' 0 4 = s.cmd := by
  apply BitVec.eq_of_getLsbD_eq
  intro k hk
  have hm : (0x0F : Byte).getLsbD k = true := by
    revert k
    decide
  have e := commandValue_agreesOn s k (by rw [h]; exact hm)
  rw [BitVec.getLsbD_extractLsb', Nat.zero_add, e]
  simp [commandByte, hk]
  omega

/-- R17, R91: the flush bit of the value of FIFOLevelReg. -/
theorem fifoLevelValue_bit (s : State) : s.fifoLevelValue.getLsbD s.params.fifoFlushBit = false := by
  simp [State.fifoLevelValue, Config.Parameters.fifoFlushMask]

/-! The FIFO. -/

/-- R8 `UNSPEC_FIFO`: a drawn FIFO holds at most as many bytes as the FIFO takes. -/
theorem unspecFifo_length_le (capacity k : Nat) : (unspecFifo capacity k).length ≤ capacity := by
  have := (Config.freeFifoLength capacity k).isLt
  simp [unspecFifo]
  omega

theorem pushByte_length_le (s : State) (d : Byte) (h : s.fifo.length ≤ s.params.fifoCapacity) :
    (s.pushByte d).fifo.length ≤ s.params.fifoCapacity := by
  rw [State.pushByte_fifo]
  split <;> simp_all
  omega

/-- R114: what a completion leaves in the FIFO is never more than was there or may be drawn. -/
theorem completionFifo_length_le (s : State) (h : s.fifo.length ≤ s.params.fifoCapacity) :
    s.completionFifo.length ≤ s.params.fifoCapacity := by
  unfold State.completionFifo
  split
  · exact unspecFifo_length_le _ _
  · split <;> simp_all

/-! The engine. -/

theorem engineDue_iff (s : State) : s.engineDue = true ↔ s.crcBusy = true ∧ s.engineWait = 0 := by
  simp [State.engineDue]

/-- R47: between two frames the engine completes, or only the count goes down. -/
theorem betweenFrames_cases (s : State) :
    (s.engineDue = true ∧ s.betweenFrames = s.crcComplete.hostTurn)
      ∨ (s.engineDue = false ∧ s.betweenFrames = s.hostTurn) := by
  cases h : s.engineDue <;> simp [State.betweenFrames, h]

/-- R22: an idle engine does nothing between two frames. -/
theorem betweenFrames_idle (s : State) (h : s.crcBusy = false) : s.betweenFrames = s.hostTurn := by
  simp [State.betweenFrames, State.engineDue, h]

/-- Between two frames the host's fields, the parameters, the last reply and the overflow flag stay. -/
theorem betweenFrames_keeps (s : State) :
    SameHost s s.betweenFrames ∧ s.betweenFrames.reply = s.reply ∧ s.betweenFrames.bufOvfl = s.bufOvfl := by
  rcases betweenFrames_cases s with ⟨-, h⟩ | ⟨-, h⟩ <;> rw [h] <;> simp [SameHost]

/-! Frames by address. -/

/-- R80: what a read frame of any register does when it completes: the block changes only by FIFODataReg's own rule, the host's
fields stay, and two draws are used. -/
theorem readRegister_next {a : RegAddr} {x : Byte} {s t : State} (h : readRegister a x s = .next t) :
    SameHost s t ∧ t.engineWait = s.engineWait ∧ t.draws = s.draws + 2
      ∧ (SameBlock s t ∨ a = Config.addrFifoDataReg ∧ SameBlock s.poisonIfBusy.dropHead t) := by
  simp only [readRegister, execRdCommandReg, execRdDivIrqReg, execRdErrorReg, execRdFifoDataReg, execRdFifoLevelReg,
    execRdCrcResultRegM, execRdCrcResultRegL, execRdOos] at h
  split_ifs at h with h1 h2 h3 h4 h5 h6 h7
  case neg => split at h <;> cases h; simp [SameHost, SameBlock]
  all_goals cases h; simp_all [SameHost, SameBlock]

/-- R80: what a write frame of any register does when it completes: the host's fields and the last result stay, and either the
block is untouched or one of the four writable registers' rules applies. -/
theorem memWrite_next {a : RegAddr} {d : Byte} {s t : State} (h : memWrite a d s = .next t) :
    (a = Config.addrCommandReg ∧ (t = s.issueIdle.answerWrite ∨ t = s.issueCalcCrc.answerWrite))
      ∨ (a = Config.addrDivIrqReg ∧ t = (s.writeDivIrq d).answerWrite)
      ∨ (a = Config.addrFifoDataReg ∧ t = (s.poisonIfBusy.pushByte d).answerWrite)
      ∨ (a = Config.addrFifoLevelReg ∧ d.getLsbD s.params.fifoFlushBit = true ∧ t = s.poisonIfBusy.flushFifo.answerWrite)
      ∨ t = s.answerWrite := by
  simp only [memWrite, execWrCommandReg, execWrDivIrqReg, execWrErrorReg, execWrFifoDataReg, execWrFifoLevelReg,
    execWrCrcResultRegM, execWrCrcResultRegL, execWrOos, ne_eq, and_flushMask_eq_zero] at h
  split_ifs at h with h1 h2 h3 h4 h5 h6 h7 h8 h9 h10 h11
  all_goals try (split at h)
  all_goals cases h
  all_goals simp_all

end Sys2Proof.Machine
end

