-- ==== Sys2Proof/Laws/Machine.lean ====
section
/-!
SUPPORT. Frames by address are the operations they decode to (40_bus_access.md R80).
-/

namespace Sys2Proof.Machine

theorem readRegister_eq_exec (a : RegAddr) (x : Byte) (s : State) : readRegister a x s = exec (decodeRead a x) s := by
  unfold readRegister decodeRead
  split_ifs <;> rfl

/-- R82, in the terms of the decoder. -/
theorem execWrCommandReg_eq (d : Byte) (s : State) :
    execWrCommandReg d s =
      if isCommand s.params s.params.cmdIdle d then .next s.issueIdle.answerWrite
      else if isCommand s.params s.params.cmdCalcCrc d then .next s.issueCalcCrc.answerWrite
      else .refused (.reservedCommand d) := by
  unfold execWrCommandReg isCommand
  by_cases h : d &&& ~~~s.params.cmdFieldMask = 0#8 <;> simp [h]

theorem memWrite_eq_exec (a : RegAddr) (d : Byte) (s : State) :
    memWrite a d s = exec (decodeWrite s.params a d) s := by
  unfold memWrite decodeWrite
  split_ifs <;> try rfl
  rw [execWrCommandReg_eq]
  unfold decodeCommand
  split_ifs with h h'
  · rfl
  · rfl
  · simp [exec, execWrCommandReg_eq, h, h']

/-- R96: WR.OOS completes only at a named register of another block. -/
theorem execWrOos_next {a : RegAddr} {d : Byte} {s t : State} (h : execWrOos a d s = .next t) :
    addrClass a = .outOfScope ∧ t = s.answerWrite := by
  unfold execWrOos at h
  split at h <;> cases h
  exact ⟨by assumption, rfl⟩

/-- R97: RD.OOS completes only at a named register of another block. -/
theorem execRdOos_next {a : RegAddr} {x : Byte} {s t : State} (h : execRdOos a x s = .next t) :
    addrClass a = .outOfScope ∧ t = s.answer s.unspecByte := by
  unfold execRdOos at h
  split at h <;> cases h
  exact ⟨by assumption, rfl⟩

end Sys2Proof.Machine
end

