-- ==== Sys2Proof/Laws/PerInstr.lean ====
section
/-!
SUPPORT. The per-instruction family `Shape`: the form of transaction an operation is encoded as. A register operation, a
command and a reserved frame are one exchange of two bytes (30_encoding.md R60), a codec operation is a codec word whose bit 32
tells the direction (R68), a helper is a helper word of its own kind (R70).
-/

namespace Sys2Proof.Laws.Shape

/-- The form of an operation's encoding, under every choice of the parameters. -/
def Statement (i : Instr) : Prop :=
  ∀ p : Config.Parameters, match encode p i with
  | .bus bytes => bytes.length = 2 ∧ i.tableRow ≤ 18
  | .codec t => t.getLsbD 32 = decide (i.tableRow = 20) ∧ (i.tableRow = 19 ∨ i.tableRow = 20)
  | .helper h w => isHelperWord w = true ∧ i.tableRow = (match h with | .setBits => 21 | .clrBits => 22)

theorem cmdIdle : Statement .cmdIdle := fun _ => ⟨rfl, by decide⟩
theorem cmdCalcCrc : Statement .cmdCalcCrc := fun _ => ⟨rfl, by decide⟩
theorem wrCommandReg (d : Byte) : Statement (.wrCommandReg d) := fun _ => ⟨rfl, by simp [Instr.tableRow]⟩
theorem rdCommandReg (x : Byte) : Statement (.rdCommandReg x) := fun _ => ⟨rfl, by simp [Instr.tableRow]⟩
theorem wrDivIrqReg (d : Byte) : Statement (.wrDivIrqReg d) := fun _ => ⟨rfl, by simp [Instr.tableRow]⟩
theorem rdDivIrqReg (x : Byte) : Statement (.rdDivIrqReg x) := fun _ => ⟨rfl, by simp [Instr.tableRow]⟩
theorem wrErrorReg (d : Byte) : Statement (.wrErrorReg d) := fun _ => ⟨rfl, by simp [Instr.tableRow]⟩
theorem rdErrorReg (x : Byte) : Statement (.rdErrorReg x) := fun _ => ⟨rfl, by simp [Instr.tableRow]⟩
theorem wrFifoDataReg (d : Byte) : Statement (.wrFifoDataReg d) := fun _ => ⟨rfl, by simp [Instr.tableRow]⟩
theorem rdFifoDataReg (x : Byte) : Statement (.rdFifoDataReg x) := fun _ => ⟨rfl, by simp [Instr.tableRow]⟩
theorem wrFifoLevelReg (d : Byte) : Statement (.wrFifoLevelReg d) := fun _ => ⟨rfl, by simp [Instr.tableRow]⟩
theorem rdFifoLevelReg (x : Byte) : Statement (.rdFifoLevelReg x) := fun _ => ⟨rfl, by simp [Instr.tableRow]⟩
theorem wrCrcResultRegM (d : Byte) : Statement (.wrCrcResultRegM d) := fun _ => ⟨rfl, by simp [Instr.tableRow]⟩
theorem rdCrcResultRegM (x : Byte) : Statement (.rdCrcResultRegM x) := fun _ => ⟨rfl, by simp [Instr.tableRow]⟩
theorem wrCrcResultRegL (d : Byte) : Statement (.wrCrcResultRegL d) := fun _ => ⟨rfl, by simp [Instr.tableRow]⟩
theorem rdCrcResultRegL (x : Byte) : Statement (.rdCrcResultRegL x) := fun _ => ⟨rfl, by simp [Instr.tableRow]⟩
theorem wrOos (a : RegAddr) (d : Byte) : Statement (.wrOos a d) := fun _ => ⟨rfl, by simp [Instr.tableRow]⟩
theorem rdOos (a : RegAddr) (x : Byte) : Statement (.rdOos a x) := fun _ => ⟨rfl, by simp [Instr.tableRow]⟩
theorem rsvdFrame (rd : Bool) (a : RegAddr) (d : Byte) : Statement (.rsvdFrame rd a d) := fun _ => ⟨rfl, by simp [Instr.tableRow]⟩

theorem accEnc (b0 b1 b2 b3 : AccessCode) (x : BitVec 20) : Statement (.accEnc b0 b1 b2 b3 x) := by
  intro _
  refine ⟨?_, Or.inl rfl⟩
  simp only [encodeAccEnc, BitVec.getLsbD_append, Instr.tableRow]
  simp

theorem accDec (p q r s : Byte) : Statement (.accDec p q r s) := by
  intro _
  refine ⟨?_, Or.inr rfl⟩
  simp only [encodeAccDec, BitVec.getLsbD_append, Instr.tableRow]
  simp

theorem setBits (a : RegAddr) (x mask : Byte) : Statement (.setBits a x mask) := fun _ => ⟨isHelperWord_helperWord _ _ _, rfl⟩
theorem clrBits (a : RegAddr) (x mask : Byte) : Statement (.clrBits a x mask) := fun _ => ⟨isHelperWord_helperWord _ _ _, rfl⟩

end Sys2Proof.Laws.Shape
end

