-- ==== Sys2Proof/Laws/Step.lean ====
section
/-!
SUPPORT. The induction over the parts of a step, packaged once: what the frames, the engine's step, the reset event and the
host's own updates keep, every step keeps.
-/

namespace Sys2Proof.Machine

/-- The parts a step is made of keep `P`. -/
structure KeptByParts (P : State → Prop) : Prop where
  read : ∀ a x s t, P s → readRegister a x s = .next t → P t
  cmdIdle : ∀ s, P s → P s.issueIdle.answerWrite
  cmdCalcCrc : ∀ s, P s → P s.issueCalcCrc.answerWrite
  divIrq : ∀ s d, P s → P (s.writeDivIrq d).answerWrite
  push : ∀ s d, P s → P (s.poisonIfBusy.pushByte d).answerWrite
  flush : ∀ s, P s → P s.poisonIfBusy.flushFifo.answerWrite
  ignored : ∀ s, P s → P s.answerWrite
  turn : ∀ s, P s → P s.hostTurn
  complete : ∀ s, P s → s.engineDue = true → P s.crcComplete
  result : ∀ s r, P s → P (s.setHostResult r)
  codec : ∀ s v, P s → P (s.setCodecOut v)
  reset : ∀ s, P s → P s.resetEvent

variable {P : State → Prop}

/-- A sequence keeps what its parts keep. -/
theorem andThen_keeps {o : StepOutcome} {f : State → StepOutcome} {t : State} (h : andThen o f = .next t)
    (ho : ∀ s, o = .next s → P s) (hf : ∀ s u, P s → f s = .next u → P u) : P t := by
  obtain ⟨s, h1, h2⟩ := (andThen_eq_next _ _ _).1 h
  exact hf s t (ho s h1) h2

theorem KeptByParts.write (K : KeptByParts P) (a : RegAddr) (d : Byte) (s t : State) (h : P s)
    (e : memWrite a d s = .next t) : P t := by
  rcases memWrite_next e with ⟨-, rfl | rfl⟩ | ⟨-, rfl⟩ | ⟨-, rfl⟩ | ⟨-, -, rfl⟩ | rfl
  · exact K.cmdIdle _ h
  · exact K.cmdCalcCrc _ h
  · exact K.divIrq _ _ h
  · exact K.push _ _ h
  · exact K.flush _ h
  · exact K.ignored _ h

theorem KeptByParts.betweenFrames (K : KeptByParts P) (s : State) (h : P s) : P s.betweenFrames := by
  rcases betweenFrames_cases s with ⟨hd, e⟩ | ⟨-, e⟩ <;> rw [e]
  · exact K.turn _ (K.complete _ h hd)
  · exact K.turn _ h

theorem KeptByParts.setBits (K : KeptByParts P) {a : RegAddr} {x mask : Byte} {s t : State} (h : P s)
    (e : execSetBits a x mask s = .next t) : P t :=
  andThen_keeps e (fun _ h1 => K.read _ _ _ _ h h1) fun _ _ h1 h2 => K.write _ _ _ _ (K.betweenFrames _ h1) h2

theorem KeptByParts.clrBits (K : KeptByParts P) {a : RegAddr} {x mask : Byte} {s t : State} (h : P s)
    (e : execClrBits a x mask s = .next t) : P t :=
  andThen_keeps e (fun _ h1 => K.read _ _ _ _ h h1) fun _ _ h1 h2 => K.write _ _ _ _ (K.betweenFrames _ h1) h2

/-- What the parts keep, every operation of the opcode table keeps. -/
theorem KeptByParts.exec (K : KeptByParts P) {i : Instr} {s t : State} (h : P s) (e : exec i s = .next t) : P t := by
  cases i with
  | cmdIdle =>
    cases e
    exact K.cmdIdle _ h
  | cmdCalcCrc =>
    cases e
    exact K.cmdCalcCrc _ h
  | wrCommandReg d => exact K.write 0x01 d s t h e
  | rdCommandReg x => exact K.read 0x01 x s t h e
  | wrDivIrqReg d => exact K.write 0x05 d s t h e
  | rdDivIrqReg x => exact K.read 0x05 x s t h e
  | wrErrorReg d => exact K.write 0x06 d s t h e
  | rdErrorReg x => exact K.read 0x06 x s t h e
  | wrFifoDataReg d => exact K.write 0x09 d s t h e
  | rdFifoDataReg x => exact K.read 0x09 x s t h e
  | wrFifoLevelReg d => exact K.write 0x0A d s t h e
  | rdFifoLevelReg x => exact K.read 0x0A x s t h e
  | wrCrcResultRegM d => exact K.write 0x21 d s t h e
  | rdCrcResultRegM x => exact K.read 0x21 x s t h e
  | wrCrcResultRegL d => exact K.write 0x22 d s t h e
  | rdCrcResultRegL x => exact K.read 0x22 x s t h e
  | wrOos a d =>
    rw [(execWrOos_next (a := a) (d := d) e).2]
    exact K.ignored _ h
  | rdOos a x =>
    refine K.read 0x02 x s t h ?_
    rw [(execRdOos_next (a := a) (x := x) e).2]
    rfl
  | rsvdFrame rd a d => cases e
  | accEnc b0 b1 b2 b3 x =>
    cases e
    exact K.codec _ _ h
  | accDec p q r y =>
    cases e
    exact K.codec _ _ h
  | setBits a x mask => exact K.setBits h e
  | clrBits a x mask => exact K.clrBits h e

theorem KeptByParts.poll (K : KeptByParts P) {a : RegAddr} {mask : Byte} :
    ∀ n s t, P s → poll a mask n s = .next t → P t := by
  intro n
  induction n with
  | zero =>
    intro s t h e
    cases e
    exact K.result _ _ h
  | succ n ih =>
    intro s t h e
    rw [Machine.poll] at e
    obtain ⟨s1, h1, h2⟩ := (andThen_eq_next _ _ _).1 e
    have p1 := K.read _ _ _ _ h h1
    split at h2
    · cases h2
      exact K.result _ _ p1
    · refine ih _ _ ?_ h2
      split
      · exact p1
      · exact K.betweenFrames _ p1

theorem KeptByParts.thenFrame (K : KeptByParts P) {o : StepOutcome} {f : State → StepOutcome} {t : State}
    (e : thenFrame o f = .next t) (ho : ∀ s, o = .next s → P s) (hf : ∀ s u, P s → f s = .next u → P u) : P t :=
  andThen_keeps e ho fun _ _ h1 h2 => hf _ _ (K.betweenFrames _ h1) h2

theorem KeptByParts.crc16WriteData (K : KeptByParts P) (data : List Byte) :
    ∀ o t, (∀ s, o = .next s → P s) → crc16WriteData data o = .next t → P t := by
  induction data with
  | nil => exact fun o t h e => h t e
  | cons b rest ih =>
    exact fun o t h e => ih _ _ (fun s hs => K.thenFrame hs h fun _ _ h1 h2 => K.write _ _ _ _ h1 h2) e

/-- What the parts keep, the host protocol keeps. -/
theorem KeptByParts.crc16 (K : KeptByParts P) {data : List Byte} {s t : State} (h : P s)
    (e : crc16 data s = .next t) : P t := by
  refine andThen_keeps e (fun s1 h1 => K.thenFrame h1 ?_ fun _ _ h2 h3 => K.poll _ _ _ h2 h3) ?_
  · intro s2 h2
    refine K.thenFrame h2 (fun s3 h3 => K.crc16WriteData _ _ _ ?_ h3) fun _ _ h4 h5 => K.write _ _ _ _ h4 h5
    intro s4 h4
    refine K.thenFrame h4 ?_ fun _ _ h5 h6 => K.setBits h5 h6
    intro s5 h5
    unfold crc16ClearFlag at h5
    split at h5
    · exact K.clrBits h h5
    · exact K.write _ _ _ _ h h5
  · intro s1 u h1 h2
    unfold crc16Finish at h2
    split at h2
    · obtain ⟨s2, h3, h4⟩ := (andThen_eq_next _ _ _).1 h2
      obtain ⟨s3, h5, h6⟩ := (andThen_eq_next _ _ _).1 h4
      cases h6
      exact K.result _ _ (K.read _ _ _ _ (K.betweenFrames _ (K.read _ _ _ _ (K.betweenFrames _ h1) h3)) h5)
    · cases h2
      exact K.result _ _ h1

/-- What the parts keep, every operation of a host program keeps. -/
theorem KeptByParts.runHostOp (K : KeptByParts P) {op : HostOp} {s t : State} (h : P s)
    (e : runHostOp op s = .next t) : P t := by
  cases op with
  | transact tr =>
    simp only [Machine.runHostOp, runTransaction] at e
    split at e
    · exact K.exec h e
    · cases e
  | poll a mask n => exact K.poll _ _ _ h e
  | crc16 data => exact K.crc16 h e
  | reset =>
    cases e
    exact K.reset _ h
  | foreign tr => cases e

/-- What the parts and the host's index keep, every step keeps. -/
theorem KeptByParts.step (K : KeptByParts P) (adv : ∀ s, P s → P s.advance) {s t : State} (h : P s)
    (e : step s = .next t) : P t := by
  unfold Machine.step at e
  split at e
  · cases e
    exact K.complete _ h (by assumption)
  · unfold hostStep at e
    split at e
    · cases e
      exact K.turn _ h
    · obtain ⟨u, h1, h2⟩ := (andThen_eq_next _ _ _).1 e
      cases h2
      exact adv _ (K.runHostOp (K.turn _ h) h1)

end Sys2Proof.Machine
end

