-- ==== Sys2Proof/Tests/Slice0.lean ====
section
/-!
SUPPORT. The model's own tests. Expected values are those of spec/95_test_vectors.md (V, K, A, B and section numbers name its
rows) or are worked out from the rule named. Below them stand the witnesses: for each statement with hypotheses, states and
operands that meet them together.
-/

namespace Sys2Proof.Tests

open Sys2Proof.Machine

/-- The default parameters. -/
abbrev P : Config.Parameters := Config.Parameters.defaults

/-- The default parameters, but each number at another value: a FIFO of 2 bytes, other codes, the command field all of
CommandReg, the CRC bit, the flush bit and the overflow bit at 0, the count in bits 3:1 only. -/
def otherNumbers : Config.Parameters :=
  { P with
    fifoCapacity := 2, cmdIdle := 0x5, cmdCalcCrc := 0xA, cmdFieldMask := 0xFF, divIrqCrcBit := 0, fifoFlushBit := 0,
    fifoLevelMask := 0x0E, errBufOvflBit := 0 }

/-- A value of the next state, if there is one. -/
def after {α : Type} (o : StepOutcome) (f : State → α) : Option α :=
  match o with
  | .next t => some (f t)
  | _ => none

/-- A state with the seven items in the order of 95_test_vectors.md; the engine, if it runs, has two more frames to wait. -/
def st (cmd : BitVec 4) (irq ovfl : Bool) (fifo : List Byte) (result : Option (BitVec 16)) (busy poison : Bool) : State :=
  { State.reset with
    cmd := cmd, crcIrq := irq, bufOvfl := ovfl, fifo := fifo, crcResult := result, crcBusy := busy, crcPoison := poison,
    engineWait := 2 }

/-- The seven items, in the order of 95_test_vectors.md. -/
structure Block where
  cmd : BitVec 4
  irq : Bool
  ovfl : Bool
  fifo : List Byte
  result : Option (BitVec 16)
  busy : Bool
  poison : Bool
deriving DecidableEq, Repr

def block (t : State) : Block := ⟨t.cmd, t.crcIrq, t.bufOvfl, t.fifo, t.crcResult, t.crcBusy, t.crcPoison⟩

/-- The refusal an operation ends in, if it ends in one. -/
def refusalIn (o : StepOutcome) : Option Refusal :=
  match o with
  | .refused r => some r
  | _ => none

/-- The bytes 0x00, 0x01, … -/
def countUp (n : Nat) : List Byte := (List.range n).map (BitVec.ofNat 8)

/-- The same state with the engine about to complete. -/
def due (s : State) : State := { s with engineWait := 0 }

/-- The same state with a host program. -/
def withProgram (s : State) (p : List HostOp) : State := { s with program := p }

/-! ## Well-formedness: each check refuses a term that is no encoding of its row (R70) -/

theorem test_wf_command_idle_byte : (Instr.wrCommandReg 0x00).wellFormed P = false := by decide
theorem test_wf_command_calc_byte : (Instr.wrCommandReg 0x03).wellFormed P = false := by decide
theorem test_wf_write_in_scope : (Instr.wrOos 0x05 0x00).wellFormed P = false := by decide
theorem test_wf_read_in_scope : (Instr.rdOos 0x22 0x00).wellFormed P = false := by decide

theorem test_wf_idle_outside_field : (Instr.cmdIdle).wellFormed { P with cmdIdle := 1, cmdFieldMask := 0x0E } = false := by decide
theorem test_wf_calc_outside_field : (Instr.cmdCalcCrc).wellFormed { P with cmdFieldMask := 0x0E } = false := by decide
theorem test_wf_calc_same_code : (Instr.cmdCalcCrc).wellFormed { P with cmdCalcCrc := 0 } = false := by decide

/-! ## Decoding: words of section 2.2 and of the pattern strings of R60, R68, R70 -/

theorem test_decode_commands :
    decodeTableWord 16 0x0200 = some .cmdIdle ∧ decodeTableWord 16 0x0203 = some .cmdCalcCrc
      ∧ decodeTableWord 16 0x020C = some (.wrCommandReg 0x0C) ∧ decodeTableWord 16 0x0213 = some (.wrCommandReg 0x13)
      ∧ decodeTableWord 16 0x82FF = some (.rdCommandReg 0xFF) := by decide

theorem test_decode_flag_registers :
    decodeTableWord 16 0x0AFF = some (.wrDivIrqReg 0xFF) ∧ decodeTableWord 16 0x8A00 = some (.rdDivIrqReg 0x00)
      ∧ decodeTableWord 16 0x0C00 = some (.wrErrorReg 0x00) ∧ decodeTableWord 16 0x8C00 = some (.rdErrorReg 0x00) := by decide

theorem test_decode_fifo_registers :
    decodeTableWord 16 0x1230 = some (.wrFifoDataReg 0x30) ∧ decodeTableWord 16 0x9200 = some (.rdFifoDataReg 0x00)
      ∧ decodeTableWord 16 0x1480 = some (.wrFifoLevelReg 0x80) ∧ decodeTableWord 16 0x9400 = some (.rdFifoLevelReg 0x00) := by
  decide

theorem test_decode_result_registers :
    decodeTableWord 16 0x42AA = some (.wrCrcResultRegM 0xAA) ∧ decodeTableWord 16 0xC200 = some (.rdCrcResultRegM 0x00)
      ∧ decodeTableWord 16 0x4455 = some (.wrCrcResultRegL 0x55) ∧ decodeTableWord 16 0xC400 = some (.rdCrcResultRegL 0x00) := by
  decide

theorem test_decode_other_addresses :
    decodeTableWord 16 0x548D = some (.wrOos 0x2A 0x8D) ∧ decodeTableWord 16 0x9000 = some (.rdOos 0x08 0x00)
      ∧ decodeTableWord 16 0x0600 = some (.wrOos 0x03 0x00) := by decide

theorem test_decode_reserved_frames :
    decodeTableWord 16 0x0300 = some (.rsvdFrame false 0x01 0x00) ∧ decodeTableWord 16 0x8B00 = some (.rsvdFrame true 0x05 0x00)
      ∧ decodeTableWord 8 0x12 = none ∧ decodeTableWord 24 0x123000 = none := by decide

theorem test_decode_codec :
    decodeTableWord 33 0x000000711 = some (.accEnc 1 2 4 3 0)
      ∧ decodeTableWord 33 0x0FFFFF268 = some (.accEnc 0 5 1 1 0xFFFFF)
      ∧ decodeTableWord 40 0x178563412 = some (.accDec 0x12 0x34 0x56 0x78) := by decide

/-- V38's frames `[94 00]`, `[14 82]` and V37's `[8A 00]`, `[0A 10]`; for CLRBITS the data field 0x10 is the complement of the
mask 0xEF (notes/assumptions/6.md). -/
theorem test_decode_helpers :
    decodeTableWord 32 0x94001482 = some (.setBits 0x0A 0x00 0x82)
      ∧ (decodeHelper .clrBits 0x8A000A10).toOption = some (.clrBits 0x05 0x00 0xEF)
      ∧ decodeTableWord 32 0x94001282 = none := by decide

/-- Section 2.1: address bytes, and the address that aliases. -/
theorem test_address_bytes :
    writeAddrByte 0x22 = 0x44 ∧ readAddrByte 0x22 = 0xC4 ∧ writeAddrByte 0x3F = 0x7E ∧ readAddrByte 0x3F = 0xFE
      ∧ writeAddrByte 0x41 = 0x02 ∧ readAddrByte 0x41 = 0x82 := by decide

/-! ## Single operations (section 2.3) -/

/-- V1. -/
theorem test_idle_when_idle : after (exec .cmdIdle State.reset) block = some (block State.reset) := by decide

/-- V5, without the FIFO. -/
theorem test_idle_cancels :
    after (exec .cmdIdle (st 3 false false [0x30, 0x00] (some 0xA802) true false))
      (fun t => (t.cmd, t.crcIrq, t.crcResult, t.crcBusy, t.crcPoison)) = some (0, false, some 0xA802, false, false) := by decide

/-- V3. -/
theorem test_calc_keeps_flag :
    after (exec .cmdCalcCrc (st 0 true false [] (some 0xA802) false false)) block
      = some ⟨3, true, false, [], some 0xA802, true, false⟩ := by decide

/-- V4. -/
theorem test_calc_forgets_poison :
    after (exec .cmdCalcCrc (st 3 false false [0x30, 0x00] none true true)) block
      = some ⟨3, false, false, [0x30, 0x00], none, true, false⟩ := by decide

/-- Section 2.2, `0x020C`. -/
theorem test_reserved_code :
    refusalIn (exec (.wrCommandReg 0x0C) State.reset) = some (.reservedCommand 0x0C) := by decide

/-- Section 2.2, `0x0213`. -/
theorem test_reserved_high_nibble :
    refusalIn (exec (.wrCommandReg 0x13) State.reset) = some (.reservedCommand 0x13) := by decide

/-- V6. -/
theorem test_command_reads_busy :
    after (exec (.rdCommandReg 0x00) (st 3 false false [0x30, 0x00] none true false)) (fun t => t.reply.byte1.extractLsb' 0 4)
      = some 3 := congrArg some (commandValue_field _ rfl)

/-- V7. -/
theorem test_divirq_zero_clears :
    after (exec (.wrDivIrqReg 0x00) (st 0 true false [] (some 0xA802) false false)) block
      = some ⟨0, false, false, [], some 0xA802, false, false⟩ := by decide

/-- V9. -/
theorem test_divirq_cannot_set :
    after (exec (.wrDivIrqReg 0xFF) (st 0 false false [] (some 0xA802) false false)) (·.crcIrq) = some false := by decide

/-- V10. -/
theorem test_divirq_reads_flag :
    after (exec (.rdDivIrqReg 0x00) (st 0 true false [] (some 0xA802) false false)) (fun t => (t.reply.byte1.getLsbD 2, t.crcIrq))
      = some (true, true) := congrArg some (Prod.ext (divIrqValue_bit _) rfl)

/-- V12. -/
theorem test_error_write_ignored :
    after (exec (.wrErrorReg 0x00) (st 0 false true (countUp 16) none false false)) (·.bufOvfl) = some true := by decide

/-- V11. -/
theorem test_error_reads_overflow :
    after (exec (.rdErrorReg 0x00) (st 0 false true (countUp 16) none false false)) (fun t => t.reply.byte1.getLsbD 4)
      = some true := congrArg some (errorValue_bit _)

/-- V13. -/
theorem test_fifo_sixteenth_byte :
    after (exec (.wrFifoDataReg 0xAB) (st 0 false false (countUp 15) none false false)) block
      = some ⟨0, false, false, countUp 15 ++ [0xAB], none, false, false⟩ := by decide

/-- V14. -/
theorem test_fifo_overflow :
    after (exec (.wrFifoDataReg 0xCD) (st 0 false false (countUp 16) none false false)) block
      = some ⟨0, false, true, countUp 16, none, false, false⟩ := by decide

/-- V18. -/
theorem test_fifo_read_poisons :
    after (exec (.rdFifoDataReg 0x00) (st 3 false false [0x30, 0x00] none true false)) (fun t => (t.reply.byte1, block t))
      = some (0x30, ⟨3, false, false, [0x00], none, true, true⟩) := by decide

/-- V17. -/
theorem test_fifo_read_empty :
    after (exec (.rdFifoDataReg 0x00) State.reset) block = some (block State.reset) := by decide

/-- V19. -/
theorem test_flush :
    after (exec (.wrFifoLevelReg 0x80) (st 0 false true (countUp 16) none false false)) block
      = some ⟨0, false, false, [], none, false, false⟩ := by decide

/-- V21. -/
theorem test_flush_needs_bit_seven :
    after (exec (.wrFifoLevelReg 0x7F) (st 0 false false (countUp 5) none false false)) (·.fifo) = some (countUp 5) := by decide

/-- V23. -/
theorem test_level_full :
    after (exec (.rdFifoLevelReg 0x00) (st 0 false false (countUp 16) none false false)) (·.reply.byte1) = some 0x10 := by decide

/-- V28. -/
theorem test_result_m_write_ignored :
    after (exec (.wrCrcResultRegM 0x55) (st 0 true false [] (some 0xA802) false false)) (·.crcResult) = some (some 0xA802) := by
  decide

/-- R94's corner case: an unwritten result stays unwritten. -/
theorem test_result_l_write_ignored : after (exec (.wrCrcResultRegL 0x55) State.reset) (·.crcResult) = some none := by decide

/-- V27. -/
theorem test_result_m :
    after (exec (.rdCrcResultRegM 0x00) (st 0 true false [] (some 0xA802) false false)) (·.reply.byte1) = some 0xA8 := by decide

/-- V29. -/
theorem test_result_l_while_busy :
    after (exec (.rdCrcResultRegL 0x00) (st 3 false false [0x50, 0x00] (some 0xA802) true false)) (·.reply.byte1)
      = some 0x02 := by decide

/-- Section 2.2, `0x548D` and `0x0600`. -/
theorem test_oos_write :
    after (exec (.wrOos 0x2A 0x8D) State.reset) block = some (block State.reset)
      ∧ refusalIn (exec (.wrOos 0x03 0x00) State.reset) = some (.reservedRegister 0x03) := by decide

/-- Section 2.2, `0x9000`; section 2.1, `0x3F`. -/
theorem test_oos_read :
    after (exec (.rdOos 0x08 0x00) State.reset) block = some (block State.reset)
      ∧ refusalIn (exec (.rdOos 0x3F 0x00) State.reset) = some (.reservedRegister 0x3F) := by decide

/-- Section 2.2, `0x0300`. -/
theorem test_reserved_frame :
    refusalIn (exec (.rsvdFrame false 0x01 0x00) State.reset) = some .reservedFrame := by decide

/-! ## The engine's step and the reset event (section 2.4) -/

/-- V30. -/
theorem test_complete :
    after (step (due (st 3 false false [0x30, 0x00] none true false))) block
      = some ⟨0, true, false, [], some 0xA802, false, false⟩ := by decide +kernel

/-- V33, without the drawn values. -/
theorem test_complete_poisoned :
    after (step (due (st 3 false false [0x30, 0x00, 0x99] (some 0xA802) true true)))
      (fun t => (t.cmd, t.crcIrq, t.bufOvfl, t.crcBusy, t.crcPoison)) = some (0, true, false, false, false) := by decide

/-- V34. -/
theorem test_complete_keeps_overflow :
    after (step (due (st 3 false true (countUp 16) none true false))) block
      = some ⟨0, true, true, [], some 0xF577, false, false⟩ := by decide +kernel

/-- V35. -/
theorem test_complete_needs_busy :
    after (step (due (st 0 false false [0x30, 0x00] none false false))) block
      = some ⟨0, false, false, [0x30, 0x00], none, false, false⟩ := by decide

/-- V36. -/
theorem test_reset_event :
    after (step (withProgram (st 3 true true [0x30, 0x00] (some 0xA802) true true) [.reset])) block
      = some ⟨0, false, false, [], none, false, false⟩ := by decide

/-! ## Read-modify-write helpers (section 2.5) -/

/-- V38. -/
theorem test_setbits_flush :
    after (exec (.setBits 0x0A 0x00 0x80) (st 0 false true [0x30, 0x00] none false false)) block
      = some ⟨0, false, false, [], none, false, false⟩ := by decide

/-- V37; the bits of DivIrqReg the block does not own are whatever is drawn. -/
theorem test_clrbits_flag :
    after (exec (.clrBits 0x05 0x00 0x04) (st 0 true false [] (some 0xA802) false false)) (·.crcIrq) = some false := by
  have h : ∀ b : Byte, b &&& ~~~0x04 &&& P.divIrqCrcMask = 0 := by decide
  have e : ∀ d s, (execWrDivIrqReg d s) = .next (s.writeDivIrq d).answerWrite := fun _ _ => rfl
  show after (andThen (execRdDivIrqReg 0x00 _) fun s1 => execWrDivIrqReg (s1.reply.byte1 &&& ~~~0x04) s1.betweenFrames) _ = _
  simp only [execRdDivIrqReg, andThen_next, e, after, State.answerWrite_crcIrq, State.writeDivIrq, crcIrqAfterWrite]
  rw [betweenFrames_idle _ rfl]
  show some (if _ &&& ~~~0x04 &&& P.divIrqCrcMask = 0 then false else _) = some false
  rw [if_pos (h _)]

/-! ## Other parameters (R6): the rules with other numbers, worked out by hand -/

/-- R82 with `CMD_CALCCRC` = 0xA: the byte 0x0A starts the engine, and 0x03 is no command. -/
theorem test_other_command_code :
    after (exec (.wrCommandReg 0x0A) { State.reset with params := otherNumbers }) (fun t => (t.cmd, t.crcBusy)) = some (0xA, true)
      ∧ refusalIn (exec (.wrCommandReg 0x03) { State.reset with params := otherNumbers }) = some (.reservedCommand 0x03)
      ∧ (decode otherNumbers (.bus [0x02, 0x0A])).toOption = some .cmdCalcCrc := by decide

/-- R88 with `FIFO_CAPACITY` = 2, and R90 with `FIFO_FLUSH_MASK` = 0x01. -/
theorem test_other_fifo :
    after (exec (.wrFifoDataReg 0x00) { st 0 false false [0x30, 0x31] none false false with params := otherNumbers })
      (fun t => (t.fifo, t.bufOvfl)) = some ([0x30, 0x31], true)
      ∧ after (exec (.wrFifoLevelReg 0x81) { st 0 false true [0x30, 0x31] none false false with params := otherNumbers })
        (fun t => (t.fifo, t.bufOvfl)) = some ([], false)
      ∧ after (exec (.rdFifoLevelReg 0x00) { st 0 false true [0x30, 0x31] none false false with params := otherNumbers })
        (·.reply.byte1) = some 0x02 := by decide

/-- R84 with `DIVIRQ_CRC_MASK` = 0x01. -/
theorem test_other_flag_bit :
    after (exec (.wrDivIrqReg 0x04) { st 0 true false [] none false false with params := otherNumbers }) (·.crcIrq) = some false
      ∧ after (exec (.wrDivIrqReg 0x01) { st 0 true false [] none false false with params := otherNumbers }) (·.crcIrq)
        = some true := by decide

/-! ## The checksum (section 3) -/

/-- K1, K3, K4, K28: the empty input, the two examples of ISO/IEC 14443-3, and that order matters. -/
theorem test_crc_short :
    crcA [] = 0x6363 ∧ crcA [0x00, 0x00] = 0x1EA0 ∧ crcA [0x12, 0x34] = 0xCF26 ∧ crcA [0x34, 0x12] = 0xFCF1 := by decide +kernel

/-- K16, K19, K25. -/
theorem test_crc_long :
    crcA [0x93, 0x70, 0x01, 0x02, 0x03, 0x04, 0x04] = 0x258E ∧ crcA (countUp 16) = 0xF577
      ∧ crcA [0x30, 0x00, 0x02, 0xA8] = 0x0000 := by decide +kernel

/-! ## The codec (sections 4 and 5) -/

/-- A15. -/
theorem test_enc_all_different :
    after (exec (.accEnc 1 2 4 3 0) State.reset) (·.codecOut) = some 0x879A465B := by decide

/-- The source's example S3 under the other bit order: `F1 ED 20 3C`. -/
theorem test_enc_other_order :
    accEncode .c1Low { b0 := 0, b1 := 5, b2 := 1, b3 := 1 }
      = { byte0 := 0xF1, byte1 := 0xED, byte2 := 0x20, byte3 := 0x3C } := by decide

/-- B6. -/
theorem test_dec_not_an_output :
    after (exec (.accDec 0x12 0x34 0x56 0x78) State.reset) (·.codecOut) = some 0x0F5 := by decide

/-- Section 5: `12 34 56 78` under the other bit order. -/
theorem test_dec_other_order :
    accDecode .c1Low { byte0 := 0x12, byte1 := 0x34, byte2 := 0x56, byte3 := 0x78 }
      = { b0 := 5, b1 := 3, b2 := 6, b3 := 0 } := by decide

/-! ## The step and the placing of a word -/

/-- Section 2.2, `0x1230`, as the first operation after reset. -/
theorem test_step_runs_placed_word :
    after (step (State.reset.withFetchWord 16 0x1230)) (fun t => (t.fifo, t.hostIndex)) = some ([0x30], 1) := by decide

/-- The same while the engine is about to complete. -/
theorem test_step_runs_placed_word_before_engine :
    after (step ((due (st 3 false false [] none true false)).withFetchWord 16 0x1230))
      (fun t => (t.fifo, t.crcBusy, t.crcPoison)) = some ([0x30], true, true) := by decide

/-- Section 2.2, last row: a one-byte exchange. -/
theorem test_short_exchange :
    refusalIn (step (withProgram State.reset [.transact (.bus [0x12])])) = some .reservedFrame := by decide

/-- R69: a POLL of no reads sees nothing and touches nothing of the block. -/
theorem test_poll_of_none :
    after (poll 0x05 0x04 0 (st 3 true false [] none true false)) (fun t => (t.hostResult, block t))
      = some (.polled false, ⟨3, true, false, [], none, true, false⟩) := by decide

/-! ## Witnesses: states and operands that meet the hypotheses of a statement together, each clause at a boundary -/

theorem witness_DecodeOfEncodeIsIdentity :
    (Instr.cmdCalcCrc).wellFormed P = true ∧ (Instr.cmdCalcCrc).wellFormed otherNumbers = true ∧
    (Instr.wrCommandReg 0x04).wellFormed P = true ∧ (Instr.wrOos 0x02 0x00).wellFormed P = true
      ∧ (Instr.rdOos 0x3F 0xFF).wellFormed P = true ∧ (Instr.clrBits 0x05 0x00 0x04).wellFormed P = true := by decide

theorem witness_EncodeOfDecodeIsIdentity :
    (decode P (.bus [0x12, 0x30])).toOption = some (.wrFifoDataReg 0x30)
      ∧ (decode P (.codec 0x1FFFFFFFF)).toOption = some (.accDec 0xFF 0xFF 0xFF 0xFF)
      ∧ (decode P (.helper .clrBits 0x94001482)).toOption = some (.clrBits 0x0A 0x00 0x7D) := by decide

/-- A word that three rows match. -/
theorem witness_DecoderFollowsTablePriorities :
    P.consistent = true ∧ otherNumbers.consistent = true ∧ (⟨2, 0x0200, 0xFF00, 2⟩ : FrameRow).covers 0x0203 = true ∧ (⟨16, 0x0000, 0x8100, 1⟩ : FrameRow).covers 0x0203 = true
      ∧ (decodeFrame P 0x0203).tableRow = 1 := by decide

theorem witness_ReservedFramesAreRefused :
    (0x01 : Byte).getLsbD 0 = true ∧ (0xFF : Byte).getLsbD 0 = true ∧ ([] : List Byte).length ≠ 2
      ∧ [(0x12 : Byte)].length ≠ 2 ∧ [(0x12 : Byte), 0x30, 0x00].length ≠ 2 := by decide

/-- An idle engine, and a running one that waits for one more frame. -/
theorem witness_StepRunsTheDecodedOperation :
    (withProgram (st 0 false false [] none false false) [.transact (.bus [0x02, 0x03])]).engineDue = false
      ∧ (withProgram { st 3 false false [] none true false with engineWait := 1 } [.transact (.bus [0x02, 0x03])]).engineDue
        = false
      ∧ (withProgram (st 0 false false [] none false false) [.transact (.bus [0x02, 0x03])]).program[0]?
        = some (.transact (.bus [0x02, 0x03]))
      ∧ (decode P (.bus [0x02, 0x03])).toOption = some .cmdCalcCrc := by decide

theorem witness_StepOfTheOtherHostOperations :
    (st 3 false false [] none true false).engineDue = false
      ∧ (withProgram (st 3 false false [] none true false) [.poll 0x05 0x04 255]).fetch = some (.poll 0x05 0x04 255)
      ∧ (withProgram (st 3 false false [] none true false) [.crc16 []]).fetch = some (.crc16 [])
      ∧ (withProgram (st 3 false false [] none true false) [.reset]).fetch = some .reset
      ∧ (withProgram (st 3 false false [] none true false) [.foreign (.bus [0x02, 0x00])]).fetch
        = some (.foreign (.bus [0x02, 0x00]))
      ∧ (st 3 false false [] none true false).fetch = none := by decide

theorem witness_PlacedWordRunsNext :
    (decode State.reset.params (transactionOfTableWord 16 0x0203)).toOption = some .cmdCalcCrc
      ∧ State.reset.params = Config.Parameters.defaults := by decide

theorem witness_EngineStepCompletesTheComputation :
    (due (st 3 false false [0x30] none true false)).crcBusy = true ∧ (due (st 3 false false [0x30] none true false)).engineWait = 0
      ∧ (due (st 3 false false [0x30] none true false)).crcPoison = false
      ∧ (due (st 3 false false [0x30] none true false)).params.crcSelfTerminates = true
      ∧ (due (st 3 false false [0x30] none true true)).crcPoison = true := by decide

theorem witness_IdleCommandCancelsTheEngine :
    (st 0 false false [] none false false).crcBusy = false ∧ (st 3 false false [] none true false).crcBusy = true := by decide

/-- A byte outside the field, the two commands, and the bytes beside them. -/
theorem witness_CommandRegWritePerformsOrRefuses :
    (0x10 : Byte) &&& ~~~State.reset.params.cmdFieldMask ≠ 0 ∧ (0x00 : Byte) &&& ~~~State.reset.params.cmdFieldMask = 0
      ∧ 0x00 = commandByte State.reset.params.cmdIdle ∧ (0x03 : Byte) &&& ~~~State.reset.params.cmdFieldMask = 0
      ∧ 0x03 ≠ commandByte State.reset.params.cmdIdle ∧ 0x03 = commandByte State.reset.params.cmdCalcCrc
      ∧ ∀ d ∈ [(0x01 : Byte), 0x02, 0x04, 0x0F], d ≠ commandByte State.reset.params.cmdIdle
        ∧ d ≠ commandByte State.reset.params.cmdCalcCrc := by decide

theorem witness_CommandRegReadsTheCommandField : State.reset.params.cmdFieldMask = 0x0F := by decide

/-- Both write rules. -/
theorem witness_DivIrqRegWriteRule :
    State.reset.params.divIrqWriteRule = .w0c
      ∧ { State.reset with params := { Config.Parameters.defaults with divIrqWriteRule := .set2 } }.params.divIrqWriteRule
        = .set2 := by decide

/-- A full FIFO and one with a single place left. -/
theorem witness_FifoDataWriteAppends :
    (st 3 false false (countUp 16) none true false).fifo.length = P.fifoCapacity
      ∧ (st 3 false false (countUp 15) none true false).fifo.length ≠ P.fifoCapacity := by decide

theorem witness_FifoDataReadRemovesTheHead :
    (st 3 false false [0x30] none true false).fifo = 0x30 :: [] ∧ (st 3 false false [] none true false).fifo = [] := by decide

theorem witness_FifoLevelWriteFlushes :
    (0x80 : Byte).getLsbD State.reset.params.fifoFlushBit = true
      ∧ (0x7F : Byte).getLsbD State.reset.params.fifoFlushBit = false := by decide

theorem witness_FifoLevelReadsTheCount :
    State.reset.params.fifoLevelMask = 0x7F ∧ State.reset.params.fifoFlushBit = 7 ∧ State.reset.params.fifoCapacity = 16
      ∧ (st 0 false false (countUp 16) none false false).fifo.length
        ≤ (st 0 false false (countUp 16) none false false).params.fifoCapacity := by decide

/-- A FIFO with one place left, and one that is full. -/
theorem witness_FifoKeepsTheOrderOfWriting :
    (st 0 false false (countUp 15) none false false).fifo.length ≤ P.fifoCapacity
      ∧ (st 0 false false (countUp 16) none false false).fifo.length ≤ P.fifoCapacity := by decide

theorem witness_ResultRegMReadsTheHighByte : (st 3 false false [] (some 0xA802) true false).crcResult = some 0xA802 := by decide

theorem witness_ResultRegLReadsTheLowByte : (st 3 false false [] (some 0xA802) true false).crcResult = some 0xA802 := by decide

/-- The lowest and the highest of the eleven. -/
theorem witness_NamedForeignRegistersHaveNoEffect :
    0x02#6 ∈ [0x02#6, 0x04#6, 0x08#6, 0x0C#6, 0x0D#6, 0x14#6, 0x26#6, 0x2A#6, 0x2B#6, 0x2C#6, 0x2D#6]
      ∧ 0x2D#6 ∈ [0x02#6, 0x04#6, 0x08#6, 0x0C#6, 0x0D#6, 0x14#6, 0x26#6, 0x2A#6, 0x2B#6, 0x2C#6, 0x2D#6] := by decide

/-- Ends of the ranges of R20. -/
theorem witness_UnnamedAddressesAreRefused :
    ∀ a ∈ [0x00#6, 0x03#6, 0x07#6, 0x0B#6, 0x0E#6, 0x13#6, 0x15#6, 0x20#6, 0x23#6, 0x25#6, 0x27#6, 0x29#6, 0x2E#6, 0x3F#6],
      a ∉ [0x01#6, 0x05#6, 0x06#6, 0x09#6, 0x0A#6, 0x21#6, 0x22#6]
        ∧ a ∉ [0x02#6, 0x04#6, 0x08#6, 0x0C#6, 0x0D#6, 0x14#6, 0x26#6, 0x2A#6, 0x2B#6, 0x2C#6, 0x2D#6] := by decide

/-- The first and the last of the registers, and states in which both helpers of CommandReg write back a command: with the
command field all of the register, so that no bit read is unspecified. -/
theorem witness_ReadModifyWriteCompletes :
    (∀ a ∈ [0x05#6, 0x2D#6], a ∈ [0x05#6, 0x06#6, 0x09#6, 0x0A#6, 0x21#6, 0x22#6, 0x02#6, 0x04#6, 0x08#6, 0x0C#6, 0x0D#6, 0x14#6,
        0x26#6, 0x2A#6, 0x2B#6, 0x2C#6, 0x2D#6])
      ∧ otherNumbers.consistent = true
      ∧ { st 0x5 false false [] none false false with params := otherNumbers }.commandValue ||| 0x04
        = commandByte otherNumbers.cmdIdle
      ∧ { st 0xA false false [] none true false with params := otherNumbers }.commandValue &&& ~~~0x10
        = commandByte otherNumbers.cmdCalcCrc
      ∧ State.reset.params.cmdIdle = 0 := by
  refine ⟨by decide, by decide, ?_, ?_, by decide⟩
  · simp [State.commandValue, ownBits, otherNumbers, st, commandByte]
  · simp [State.commandValue, ownBits, otherNumbers, st, commandByte]

theorem witness_SetBitsFlushesTheFifo :
    (0x80 : Byte).getLsbD State.reset.params.fifoFlushBit = true
      ∧ (st 0 false true (countUp 16) none false false).crcBusy = false := by decide

theorem witness_ClrBitsClearsTheDoneFlag :
    (st 0 true false [] none false false).params.divIrqWriteRule = .w0c ∧ (0x04 : Byte).getLsbD State.reset.params.divIrqCrcBit = true
      ∧ (st 0 true false [] none false false).crcBusy = false := by decide

/-- V39's state: the engine is about to complete, the flag is clear. -/
theorem witness_ReadModifyWriteLosesTheFlag :
    (due (st 3 false false [0x30] none true false)).params.divIrqWriteRule = .w0c ∧ (0x10 : Byte).getLsbD State.reset.params.divIrqCrcBit = false
      ∧ (due (st 3 false false [0x30] none true false)).crcIrq = false
      ∧ (due (st 3 false false [0x30] none true false)).crcBusy = true
      ∧ (due (st 3 false false [0x30] none true false)).crcPoison = false
      ∧ (due (st 3 false false [0x30] none true false)).engineWait = 0 := by decide

theorem witness_SetBitsWithTheCrcBitKeepsTheFlag :
    (due (st 3 false false [] none true false)).params.divIrqWriteRule = .w0c ∧ (0x04 : Byte).getLsbD State.reset.params.divIrqCrcBit = true := by decide

/-- Both orders of the code bits, and the first and the last block. -/
theorem witness_AccEncBitMap :
    State.reset.params.accBitOrder = .c1High
      ∧ { State.reset with params := { Config.Parameters.defaults with accBitOrder := .c1Low } }.params.accBitOrder = .c1Low
      ∧ (0, 1#3) ∈ [(0, 1#3), (1, 2#3), (2, 4#3), (3, 3#3)] ∧ (3, 3#3) ∈ [(0, 1#3), (1, 2#3), (2, 4#3), (3, 3#3)] := by decide

theorem witness_AccDecBitMap :
    State.reset.params.accBitOrder = .c1High
      ∧ { State.reset with params := { Config.Parameters.defaults with accBitOrder := .c1Low } }.params.accBitOrder = .c1Low
      ∧ 3 < 4 ∧ 12 ≤ 12 := by decide

/-- R135 (c), (e): equal encodings, and a word that is an encoder output. -/
theorem witness_CodecLaws :
    accEncode .c1High { b0 := 0, b1 := 5, b2 := 1, b3 := 1 } = accEncode .c1High { b0 := 0, b1 := 5, b2 := 1, b3 := 1 }
      ∧ accEncode .c1High (accDecode .c1High ⟨0xFD, 0x21, 0xE0, 0x3C⟩) = ⟨0xFD, 0x21, 0xE0, 0x3C⟩
      ∧ accEncode .c1High (accDecode .c1High ⟨0xFF, 0x07, 0x80, 0x69⟩) ≠ ⟨0xFF, 0x07, 0x80, 0x69⟩ := by decide

/-- No bytes and sixteen. -/
theorem witness_Crc16ReturnsTheChecksumOrTimesOut :
    State.reset.params.consistent = true ∧ State.reset.crcBusy = false ∧ State.reset.params.crcSelfTerminates = true
      ∧ ([] : List Byte).length ≤ P.fifoCapacity ∧ (countUp 16).length ≤ P.fifoCapacity := by decide

/-- The last budget that is too small and the first that is enough: the completion may come right after the first read. -/
theorem witness_PollSeesTheFlagWithinTheBudget :
    (due (st 3 false false [] none true false)).crcBusy = true ∧ (due (st 3 false false [] none true false)).crcIrq = false
      ∧ (due (st 3 false false [] none true false)).engineWait + 2 ≤ 2
      ∧ 1 < (due (st 3 false false [] none true false)).engineWait + 2 := by decide

/-- The running engine under a program that reads a register, writes DivIrqReg, runs a helper and polls, and under one that
touches the FIFO and writes DivIrqReg back. -/
theorem witness_StartedEngineCompletes :
    (∀ s ∈ [withProgram (st 3 false false [0x30] none true false)
          [.transact (.bus [0x94, 0x00]), .transact (.bus [0x0A, 0x00]), .transact (.helper .setBits 0x8C000C01),
            .poll 0x05 0x04 255]],
        s.crcBusy = true ∧ s.crcPoison = false
          ∧ ∀ op ∈ s.program.drop s.hostIndex, op.engineEffect s.params = .leaves)
      ∧ ∀ s ∈ [withProgram (st 3 false false [0x30] none true false)
          [.transact (.bus [0x12, 0x31]), .transact (.helper .clrBits 0x8A000A00)]],
        s.crcBusy = true ∧ ∀ op ∈ s.program.drop s.hostIndex, op.engineEffect s.params ≠ .ends := by decide

theorem witness_HostOperationsDoNotHoldTheEngineUp :
    (st 3 false false [] none true false).crcBusy = true ∧ (st 3 false false [] none true false).engineDue = false
      ∧ (after (exec (.rdDivIrqReg 0x00) (st 3 false false [] none true false).hostTurn) (·.engineWait)) = some 1 := by decide

theorem witness_StepKeepsTheInvariants :
    (withProgram (st 3 false false (countUp 16) none true false) [.transact (.bus [0x12, 0x00])]).Inv
      ∧ (after (step (withProgram (st 3 false false (countUp 16) none true false) [.transact (.bus [0x12, 0x00])]))
          (·.bufOvfl)) = some true := by
  unfold State.Inv
  decide

theorem witness_DoneFlagMeansWrittenResult :
    (due (st 3 false false [] none true false)).params.divIrqWriteRule = .w0c
      ∧ ((due (st 3 false false [] none true false)).crcIrq = true →
          (due (st 3 false false [] none true false)).crcResult.isSome = true)
      ∧ (after (step (due (st 3 false false [] none true false))) (·.crcIrq)) = some true := by decide

theorem witness_StepKeepsTheParameters :
    (after (step (due (st 3 false false [] none true false))) (·.crcBusy)) = some false := by decide

/-- The write that clears the flag. -/
theorem witness_DoneFlagIsSetByCompletionOnly :
    (st 0 true false [] none false false).params.divIrqWriteRule = .w0c
      ∧ (∀ a x m, Instr.wrDivIrqReg 0x00 ≠ .setBits a x m ∧ Instr.wrDivIrqReg 0x00 ≠ .clrBits a x m)
      ∧ (after (exec (.wrDivIrqReg 0x00) (st 0 true false [] none false false)) (·.crcIrq)) = some false
      ∧ (st 0 true false [] none false false).crcIrq = true
      ∧ (after (exec (.wrDivIrqReg 0x04) (st 0 true false [] none false false)) (·.crcIrq)) = some true := by
  refine ⟨by decide, fun _ _ _ => ⟨nofun, nofun⟩, ?_⟩
  decide

/-- The write that sets the overflow flag and the one that clears it. -/
theorem witness_ResultAndOverflowHaveOneWriter :
    (∀ a x m, Instr.wrFifoDataReg 0x00 ≠ .setBits a x m ∧ Instr.wrFifoDataReg 0x00 ≠ .clrBits a x m)
      ∧ (∀ a x m, Instr.wrFifoLevelReg 0x80 ≠ .setBits a x m ∧ Instr.wrFifoLevelReg 0x80 ≠ .clrBits a x m)
      ∧ (st 0 false false (countUp 16) none false false).bufOvfl = false
      ∧ (after (exec (.wrFifoDataReg 0x00) (st 0 false false (countUp 16) none false false)) (·.bufOvfl)) = some true
      ∧ (st 0 false true (countUp 16) none false false).bufOvfl = true
      ∧ (after (exec (.wrFifoLevelReg 0x80) (st 0 false true (countUp 16) none false false)) (·.bufOvfl)) = some false := by
  refine ⟨fun _ _ _ => ⟨nofun, nofun⟩, fun _ _ _ => ⟨nofun, nofun⟩, ?_⟩
  decide

theorem witness_OnlyFifoAccessesPoison :
    (∀ a x m, Instr.rdFifoDataReg 0x00 ≠ .setBits a x m ∧ Instr.rdFifoDataReg 0x00 ≠ .clrBits a x m)
      ∧ (st 3 false false [] none true false).crcPoison = false
      ∧ (after (exec (.rdFifoDataReg 0x00) (st 3 false false [] none true false)) (·.crcPoison)) = some true
      ∧ (after (exec (.rdFifoLevelReg 0x00) (st 3 false false [] none true false)) (·.crcPoison)) = some false := by
  refine ⟨fun _ _ _ => ⟨nofun, nofun⟩, ?_⟩
  decide

theorem witness_ReadsChangeNothing :
    (0x08#6 : RegAddr) ≠ Config.addrFifoDataReg ∧ (0x0A#6 : RegAddr) ≠ Config.addrFifoDataReg
      ∧ (after (exec (decodeRead 0x0A 0x00) State.reset) (·.reply.byte1)) = some 0x00 := by decide

/-- Two states of one block that differ in the draws and in the engine's moment. -/
theorem witness_SevenItemsAreTheWholeState :
    SameBlock (st 3 false false [0x30] none true false) { due (st 3 false false [0x30] none true false) with draws := 7 }
      ∧ { due (st 3 false false [0x30] none true false) with draws := 7 }.params
        = (st 3 false false [0x30] none true false).params
      ∧ (∀ a x m, Instr.cmdCalcCrc ≠ .setBits a x m ∧ Instr.cmdCalcCrc ≠ .clrBits a x m)
      ∧ Instr.cmdCalcCrc ≠ .cmdIdle ∧ Instr.cmdCalcCrc ≠ .wrCommandReg (commandByte State.reset.params.cmdIdle)
      ∧ (after (exec .cmdCalcCrc (st 3 false false [0x30] none true false)) (·.crcBusy)) = some true
      ∧ refusalIn (exec (.wrOos 0x03 0x00) (st 3 false false [0x30] none true false)) = some (.reservedRegister 0x03) := by
  refine ⟨by unfold SameBlock; decide, rfl, fun _ _ _ => ⟨nofun, nofun⟩, ?_⟩
  decide

theorem witness_CodecReadsNoState : { State.reset with draws := 7 }.params = State.reset.params := by decide

end Sys2Proof.Tests
end

section
/-!
The parameters of R6 along a run: no part of a step writes them, so no step does. And their values after reset.
-/

namespace Sys2Proof.Machine

/-- The state carries the parameters `p`. -/
def State.HasParams (p : Config.Parameters) (s : State) : Prop := s.params = p

/-- R80: a read frame that completes leaves the parameters alone. -/
theorem readRegister_params {a : RegAddr} {x : Byte} {s t : State} (h : readRegister a x s = .next t) :
    t.params = s.params := by
  obtain ⟨⟨-, -, -, -, hparams⟩, -⟩ := readRegister_next h
  exact hparams

/-- R10: the parameters are no state of the block, so none of the parts of a step writes them. -/
theorem hasParams_keptByParts (p : Config.Parameters) : KeptByParts (State.HasParams p) where
  read _ _ _ _ h e := (readRegister_params e).trans h
  cmdIdle _ h := h
  cmdCalcCrc _ h := h
  divIrq _ _ h := h
  push s d h := (State.pushByte_params s.poisonIfBusy d).trans h
  flush _ h := h
  ignored _ h := h
  turn _ h := h
  complete _ h _ := h
  result _ _ h := h
  codec _ _ h := h
  reset _ h := h

/-- Settles O51, by the induction over the parts of a step (`KeptByParts.step`). -/
theorem stepKeepsTheParameters : Obligations.StepKeepsTheParameters :=
  fun s _ e => (hasParams_keptByParts s.params).step (fun _ h => h) rfl e

/-- Settles O50: `State.reset` carries `Config.Parameters.defaults`, whose fields are R6's values. -/
theorem parametersAfterReset : Obligations.ParametersAfterReset := by
  unfold Obligations.ParametersAfterReset
  decide

end Sys2Proof.Machine
end

section
/-!
The invariants of R30 along a run. What `State.Inv` says of the block (`State.BlockInv`) is kept by the parts of a step; what
it says of the host's index follows from what one step does to the index.
-/

namespace Sys2Proof.Machine

/-- What `State.Inv` says of the seven items and the parameters (R30): all of it but the host's index. -/
structure State.BlockInv (s : State) : Prop where
  consistent : s.params.consistent = true
  fifo_le : s.fifo.length ≤ s.params.fifoCapacity
  busy_of_poison : s.crcPoison = true → s.crcBusy = true
  cmd_of_busy : s.crcBusy = true → s.cmd = s.params.cmdCalcCrc
  cmd_cases : s.cmd = s.params.cmdIdle ∨ s.cmd = s.params.cmdCalcCrc
  busy_of_cmd : s.params.crcSelfTerminates = true → s.cmd = s.params.cmdCalcCrc → s.crcBusy = true

theorem State.inv_iff (s : State) : s.Inv ↔ s.BlockInv ∧ s.hostIndex ≤ s.program.length := by
  constructor
  · rintro ⟨hp, hf, hpb, hbc, hc, hcb, hi⟩
    exact ⟨⟨hp, hf, hpb, hbc, hc, hcb⟩, hi⟩
  · rintro ⟨⟨hp, hf, hpb, hbc, hc, hcb⟩, hi⟩
    exact ⟨hp, hf, hpb, hbc, hc, hcb, hi⟩

/-- R64: the two commands of consistent parameters have different codes. -/
theorem cmdIdle_ne_cmdCalcCrc {p : Config.Parameters} (h : p.consistent = true) : p.cmdIdle ≠ p.cmdCalcCrc := by
  simp only [Config.Parameters.consistent, Bool.and_eq_true, bne_iff_ne] at h
  obtain ⟨⟨⟨hne, -⟩, -⟩, -⟩ := h
  exact hne

namespace State.BlockInv

variable {s t : State}

/-- Only the seven items and the parameters count. -/
theorem of_sameBlock (h : s.BlockInv) (hb : SameBlock s t) (hp : t.params = s.params) : t.BlockInv := by
  obtain ⟨hcmd, -, -, hfifo, -, hbusy, hpoison⟩ := hb
  obtain ⟨h1, h2, h3, h4, h5, h6⟩ := h
  constructor <;> simpa only [hp, hcmd, hfifo, hbusy, hpoison]

/-- An idle engine in the idle command meets R30, whatever a FIFO within its capacity holds. -/
theorem of_idle (hp : s.params.consistent = true) (hf : s.fifo.length ≤ s.params.fifoCapacity)
    (hcmd : s.cmd = s.params.cmdIdle) (hbusy : s.crcBusy = false) (hpoison : s.crcPoison = false) : s.BlockInv where
  consistent := hp
  fifo_le := hf
  busy_of_poison := by simp [hpoison]
  cmd_of_busy := by simp [hbusy]
  cmd_cases := .inl hcmd
  busy_of_cmd _ hc := absurd (hcmd.symm.trans hc) (cmdIdle_ne_cmdCalcCrc hp)

/-- R115: only a running engine is poisoned. -/
theorem poisonIfBusy (h : s.BlockInv) : s.poisonIfBusy.BlockInv :=
  { h with busy_of_poison := fun hp => (Bool.or_eq_true_iff.1 hp).elim h.busy_of_poison id }

theorem dropHead (h : s.BlockInv) : s.dropHead.BlockInv :=
  { h with fifo_le := by simpa using Nat.le_succ_of_le h.fifo_le }

theorem flushFifo (h : s.BlockInv) : s.flushFifo.BlockInv :=
  { h with fifo_le := Nat.zero_le _ }

theorem pushByte (h : s.BlockInv) (d : Byte) : (s.pushByte d).BlockInv where
  consistent := by simpa using h.consistent
  fifo_le := by simpa only [State.pushByte_params] using pushByte_length_le s d h.fifo_le
  busy_of_poison := by simpa using h.busy_of_poison
  cmd_of_busy := by simpa using h.cmd_of_busy
  cmd_cases := by simpa using h.cmd_cases
  busy_of_cmd := by simpa using h.busy_of_cmd

theorem issueIdle (h : s.BlockInv) : s.issueIdle.BlockInv := by
  refine of_idle h.consistent ?_ rfl rfl rfl
  simp only [State.issueIdle_fifo, State.issueIdle_params]
  split
  · exact unspecFifo_length_le _ _
  · exact h.fifo_le

theorem issueCalcCrc (h : s.BlockInv) : s.issueCalcCrc.BlockInv where
  consistent := h.consistent
  fifo_le := h.fifo_le
  busy_of_poison := by simp
  cmd_of_busy _ := rfl
  cmd_cases := .inr rfl
  busy_of_cmd _ _ := rfl

/-- R114, U7: the completion of a running engine, self-terminating or not. -/
theorem crcComplete (h : s.BlockInv) (hbusy : s.crcBusy = true) : s.crcComplete.BlockInv := by
  have hfifo := completionFifo_length_le s h.fifo_le
  cases hst : s.params.crcSelfTerminates with
  | true => exact of_idle h.consistent hfifo (by simp [hst]) rfl rfl
  | false =>
    have hcmd : s.crcComplete.cmd = s.params.cmdCalcCrc := by simpa [hst] using h.cmd_of_busy hbusy
    exact
      { consistent := h.consistent
        fifo_le := hfifo
        busy_of_poison := by simp
        cmd_of_busy := by simp
        cmd_cases := .inr hcmd
        busy_of_cmd := by simp [hst] }

/-- R161: after the reset event. -/
theorem resetEvent (h : s.BlockInv) : s.resetEvent.BlockInv :=
  of_idle h.consistent (Nat.zero_le _) rfl rfl rfl

end State.BlockInv

/-- R30, as far as it speaks of the block, is kept by every part of a step. -/
theorem blockInv_keptByParts : KeptByParts State.BlockInv where
  read _ _ _ _ h e := by
    obtain ⟨⟨-, -, -, -, hp⟩, -, -, hb | ⟨-, hb⟩⟩ := readRegister_next e
    · exact h.of_sameBlock hb hp
    · exact h.poisonIfBusy.dropHead.of_sameBlock hb hp
  cmdIdle _ h := { h.issueIdle with }
  cmdCalcCrc _ h := { h.issueCalcCrc with }
  divIrq _ _ h := { h with }
  push _ d h := { h.poisonIfBusy.pushByte d with }
  flush _ h := { h.poisonIfBusy.flushFifo with }
  ignored _ h := { h with }
  turn _ h := { h with }
  complete s h hd := h.crcComplete ((engineDue_iff s).1 hd).1
  result _ _ h := { h with }
  codec _ _ h := { h with }
  reset _ h := h.resetEvent

/-! The host's place in its program (R25). -/

/-- The host stands at index `n` of the program `ops`. -/
def State.HostAt (ops : List HostOp) (n : Nat) (s : State) : Prop := s.program = ops ∧ s.hostIndex = n

/-- R25: only the end of a host operation moves the host on, so no part of a step does. -/
theorem hostAt_keptByParts (ops : List HostOp) (n : Nat) : KeptByParts (State.HostAt ops n) where
  read _ _ _ _ h e := by
    obtain ⟨⟨hprogram, hindex, -⟩, -⟩ := readRegister_next e
    exact ⟨hprogram.trans h.1, hindex.trans h.2⟩
  cmdIdle _ h := h
  cmdCalcCrc _ h := h
  divIrq _ _ h := h
  push s d h := ⟨(s.poisonIfBusy.pushByte_program d).trans h.1, (s.poisonIfBusy.pushByte_hostIndex d).trans h.2⟩
  flush _ h := h
  ignored _ h := h
  turn _ h := h
  complete _ h _ := h
  result _ _ h := h
  codec _ _ h := h
  reset _ h := h

/-- R25: a step leaves the host's program alone, and its index too or moves it past an operation of the program. -/
theorem step_hostIndex {s t : State} (e : step s = .next t) :
    t.program = s.program
      ∧ (t.hostIndex = s.hostIndex ∨ s.hostIndex < s.program.length ∧ t.hostIndex = s.hostIndex + 1) := by
  unfold step at e
  split at e
  · cases e
    exact ⟨rfl, .inl rfl⟩
  · unfold hostStep at e
    split at e
    case h_1 =>
      cases e
      exact ⟨rfl, .inl rfl⟩
    case h_2 op hfetch =>
      obtain ⟨u, hrun, hu⟩ := (andThen_eq_next _ _ _).1 e
      cases hu
      have hlt : s.hostIndex < s.program.length := (List.getElem?_eq_some_iff.1 hfetch).1
      obtain ⟨hprogram, hindex⟩ :=
        (hostAt_keptByParts s.program s.hostIndex).runHostOp (s := s.hostTurn) ⟨rfl, rfl⟩ hrun
      exact ⟨hprogram, .inr ⟨hlt, congrArg (· + 1) hindex⟩⟩

/-- Settles O46: the block's part by the induction over the parts of a step (`KeptByParts.step`), the index by
`step_hostIndex`. -/
theorem stepKeepsTheInvariants : Obligations.StepKeepsTheInvariants := by
  intro s t h e
  obtain ⟨hblock, hindex⟩ := (State.inv_iff s).1 h
  refine (State.inv_iff t).2 ⟨blockInv_keptByParts.step (fun _ h => { h with }) hblock e, ?_⟩
  obtain ⟨hprogram, hstay | ⟨hlt, hmove⟩⟩ := step_hostIndex e
  · rwa [hprogram, hstay]
  · rw [hprogram, hmove]
    exact hlt

end Sys2Proof.Machine
end

section
/-!
Encoding: an address wider than six bits, and that decoding gives well-formed operations only.
-/

namespace Sys2Proof

/-- R11, R61: the mask 0x7E of the address byte drops every bit of the address above bit 5. -/
theorem addrBits_mod (addr : Nat) : (addr <<< 1) &&& 0x7E = ((addr % 64) <<< 1) &&& 0x7E := by
  have hshift : (addr <<< 1) % 2 ^ 7 = (addr % 64) <<< 1 := by
    simp only [Nat.shiftLeft_eq]
    omega
  have hmask : (addr <<< 1) &&& 0x7E < 2 ^ 7 := Nat.lt_of_le_of_lt Nat.and_le_right (by decide)
  calc (addr <<< 1) &&& 0x7E = ((addr <<< 1) &&& 0x7E) % 2 ^ 7 := (Nat.mod_eq_of_lt hmask).symm
    _ = (addr <<< 1) % 2 ^ 7 &&& 0x7E % 2 ^ 7 := Nat.and_mod_two_pow
    _ = ((addr % 64) <<< 1) &&& 0x7E := by rw [hshift]

theorem writeAddrByte_mod (addr : Nat) : writeAddrByte addr = writeAddrByte (addr % 64) := by
  rw [writeAddrByte, addrBits_mod, writeAddrByte]

theorem readAddrByte_mod (addr : Nat) : readAddrByte addr = readAddrByte (addr % 64) := by
  rw [readAddrByte, addrBits_mod, readAddrByte]

/-- Settles O5: the address byte depends on the address mod 64 alone, and that is a register address. -/
theorem wideAddressReachesLowSixBits : Obligations.WideAddressReachesLowSixBits := by
  intro p addr d
  have hreg : (BitVec.ofNat 6 (addr % 64)).toNat = addr % 64 := by simp
  rw [writeAddrByte_mod, readAddrByte_mod, ← hreg, BitVec.ofNat_toNat, BitVec.setWidth_eq]
  exact ⟨decode_writeFrame p _ d, decode_readFrame p _ d⟩

/-! What decoding gives is well-formed (R70). -/

/-- R80: the block owns the seven registers and no other. -/
theorem isInScope_eq_false_iff (a : RegAddr) :
    isInScope a = false ↔ a ≠ Config.addrCommandReg ∧ a ≠ Config.addrDivIrqReg ∧ a ≠ Config.addrErrorReg
      ∧ a ≠ Config.addrFifoDataReg ∧ a ≠ Config.addrFifoLevelReg ∧ a ≠ Config.addrCrcResultRegM
      ∧ a ≠ Config.addrCrcResultRegL := by
  simp [isInScope, Config.inScopeAddrs]

/-- R64: a byte that is a command is that command's own byte. -/
theorem isCommand_commandByte {p : Config.Parameters} {code : BitVec 4} {d : Byte} (h : isCommand p code d = true) :
    isCommand p code (commandByte code) = true := by
  rwa [← ((isCommand_iff p code d).1 h).1]

theorem decodeCommand_wellFormed (p : Config.Parameters) (d : Byte) : (decodeCommand p d).wellFormed p = true := by
  unfold decodeCommand
  split_ifs with hidle hcalc
  · exact isCommand_commandByte hidle
  · have hne : p.cmdCalcCrc ≠ p.cmdIdle := fun e => hidle (e ▸ hcalc)
    simp [Instr.wellFormed, isCommand_commandByte hcalc, hne]
  · simp [Instr.wellFormed, hidle, hcalc]

theorem decodeWrite_wellFormed (p : Config.Parameters) (a : RegAddr) (d : Byte) :
    (decodeWrite p a d).wellFormed p = true := by
  unfold decodeWrite
  split_ifs
  · exact decodeCommand_wellFormed p d
  all_goals simp_all [Instr.wellFormed, isInScope_eq_false_iff]

theorem decodeRead_wellFormed (p : Config.Parameters) (a : RegAddr) (x : Byte) :
    (decodeRead a x).wellFormed p = true := by
  unfold decodeRead
  split_ifs
  all_goals simp_all [Instr.wellFormed, isInScope_eq_false_iff]

theorem decodeFrame_wellFormed (p : Config.Parameters) (w : FrameWord) : (decodeFrame p w).wellFormed p = true := by
  unfold decodeFrame
  split_ifs
  · rfl
  · exact decodeRead_wellFormed p _ _
  · exact decodeWrite_wellFormed p _ _

/-- R70: whatever a transaction decodes to is an encoding of its own row. -/
theorem decode_wellFormed {p : Config.Parameters} {t : Transaction} {i : Instr} (h : decode p t = .ok i) :
    i.wellFormed p = true := by
  unfold decode at h
  split at h
  case h_1 =>
    cases h
    exact decodeFrame_wellFormed p _
  case h_2 => cases h
  case h_3 w =>
    cases h
    unfold decodeCodec
    split <;> rfl
  case h_4 k w =>
    unfold decodeHelper at h
    split at h
    · cases k <;> cases h <;> rfl
    · cases h

end Sys2Proof
end

section
/-!
The step of the host (R25): one equation for each thing it can meet at its index, and the placing of a word.
-/

namespace Sys2Proof.Machine

/-- R25: when the engine is not due, a step runs the operation the host presents and moves the index on. -/
theorem step_of_fetch {s : State} {op : HostOp} (hdue : s.engineDue = false) (hfetch : s.fetch = some op) :
    step s = andThen (runHostOp op s.hostTurn) fun u => .next u.advance := by
  have hturn : s.hostTurn.fetch = some op := hfetch
  simp [step, hdue, hostStep, hturn]

/-- R25: past the end of the program only the engine's count goes down. -/
theorem step_of_fetch_none {s : State} (hdue : s.engineDue = false) (hfetch : s.fetch = none) :
    step s = .next s.hostTurn := by
  have hturn : s.hostTurn.fetch = none := hfetch
  simp [step, hdue, hostStep, hturn]

theorem runTransaction_of_decode {s : State} {t : Transaction} {i : Instr} (h : decode s.params t = .ok i) :
    runTransaction t s = exec i s := by
  simp [runTransaction, h]

/-- R41, R80: the step at an operation of the opcode table. -/
theorem step_of_decode {s : State} {t : Transaction} {i : Instr} (hdue : s.engineDue = false)
    (hfetch : s.fetch = some (.transact t)) (hdecode : decode s.params t = .ok i) :
    step s = andThen (exec i s.hostTurn) fun u => .next u.advance := by
  rw [step_of_fetch hdue hfetch, runHostOp, runTransaction_of_decode (s := s.hostTurn) hdecode]

/-- Settles O9: `decode_wellFormed`, and the host's step on a transaction that decodes. -/
theorem stepRunsTheDecodedOperation : Obligations.StepRunsTheDecodedOperation :=
  fun _ _ _ hdue hfetch hdecode => ⟨decode_wellFormed hdecode, step_of_decode hdue hfetch hdecode⟩

theorem resetEvent_blockReset (s : State) : s.resetEvent.BlockReset := ⟨rfl, rfl, rfl, rfl, rfl, rfl, rfl⟩

/-- Settles O10, each clause from the host's step (`step_of_fetch`) and the meaning of the operation presented. -/
theorem stepOfTheOtherHostOperations : Obligations.StepOfTheOtherHostOperations := by
  intro s hdue
  refine ⟨fun a mask n h => step_of_fetch hdue h, fun data h => step_of_fetch hdue h, fun h => ?_, fun t h => ?_,
    fun h => ?_⟩
  · exact ⟨s.hostTurn.resetEvent.advance, step_of_fetch hdue h, resetEvent_blockReset s.hostTurn, rfl⟩
  · rw [step_of_fetch hdue h, runHostOp, andThen_refused]
  · exact ⟨s.hostTurn, step_of_fetch_none hdue h, ⟨rfl, rfl, rfl, rfl, rfl, rfl, rfl⟩, ⟨rfl, rfl, rfl, rfl, rfl⟩, rfl⟩

/-! The placing of a word. -/

/-- The host presents what was placed. -/
theorem State.placeOp_fetch (s : State) (op : HostOp) : (s.placeOp op).fetch = some op := by
  simp [State.placeOp, State.fetch]

theorem State.holdEngine_fetch (s : State) : s.holdEngine.fetch = s.fetch := by
  unfold State.holdEngine
  split <;> rfl

@[simp] theorem State.holdEngine_params (s : State) : s.holdEngine.params = s.params := by
  unfold State.holdEngine
  split <;> rfl

@[simp] theorem State.holdEngine_draws (s : State) : s.holdEngine.draws = s.draws := by
  unfold State.holdEngine
  split <;> rfl

theorem State.holdEngine_sameBlock (s : State) : SameBlock s s.holdEngine := by
  unfold State.holdEngine
  split <;> exact ⟨rfl, rfl, rfl, rfl, rfl, rfl, rfl⟩

/-- After the hold the next move is the host's. -/
@[simp] theorem State.holdEngine_engineDue (s : State) : s.holdEngine.engineDue = false := by
  unfold State.holdEngine
  split
  case isTrue => simp [State.engineDue]
  case isFalse hdue => exact Bool.eq_false_iff.2 hdue

theorem decodeTableWord_eq_some {nbits w : Nat} {i : Instr}
    (h : decode Config.Parameters.defaults (transactionOfTableWord nbits w) = .ok i) :
    decodeTableWord nbits w = some i := by
  simp [decodeTableWord, h]

/-- Settles O11: the placed operation is fetched, the held engine is not due, and neither placing nor holding touches the
block. -/
theorem placedWordRunsNext : Obligations.PlacedWordRunsNext := by
  intro s nbits w i hdecode
  refine ⟨⟨(s.withFetchWord nbits w).hostTurn, ?_, ?_, ?_, ?_⟩, fun hp => decodeTableWord_eq_some (hp ▸ hdecode)⟩
  · exact State.holdEngine_sameBlock (s.placeOp _)
  · exact State.holdEngine_params (s.placeOp _)
  · exact State.holdEngine_draws (s.placeOp _)
  · refine step_of_decode (t := transactionOfTableWord nbits w) (State.holdEngine_engineDue _) ?_ ?_
    · exact (State.holdEngine_fetch _).trans (State.placeOp_fetch _ _)
    · rwa [State.withFetchWord, State.holdEngine_params]

end Sys2Proof.Machine
end

section
/-!
The FIFO under any number of writes (R21, R169): one write keeps the first `FIFO_CAPACITY` bytes, and so does a list of them.
-/

namespace Sys2Proof.Machine

/-- R21, R88: a write appends its byte as far as the capacity goes. -/
theorem pushByte_fifo_take {s : State} (d : Byte) (h : s.fifo.length ≤ s.params.fifoCapacity) :
    (s.pushByte d).fifo = (s.fifo ++ [d]).take s.params.fifoCapacity := by
  rw [State.pushByte_fifo]
  split
  case isTrue hfull => rw [← hfull, List.take_left]
  case isFalse hroom => exact (List.take_of_length_le (by simp; omega)).symm

/-- R169: what the first bytes push out, later bytes do not bring back. -/
theorem take_append_of_take (n : Nat) (a b : List Byte) : (a.take n ++ b).take n = (a ++ b).take n := by
  rw [List.take_append, List.take_take, List.take_append, List.length_take, Nat.min_self]
  congr 2
  omega

theorem exec_wrFifoDataReg (d : Byte) (s : State) :
    exec (.wrFifoDataReg d) s = .next (s.poisonIfBusy.pushByte d).answerWrite := rfl

/-- Settles O25, by induction over the bytes written. -/
theorem fifoKeepsTheOrderOfWriting : Obligations.FifoKeepsTheOrderOfWriting := by
  intro data
  induction data with
  | nil =>
    intro s h
    exact ⟨s, rfl, by simp [List.take_of_length_le h], by simp [Nat.not_lt.2 h]⟩
  | cons b rest ih =>
    intro s h
    have hlen := pushByte_length_le s.poisonIfBusy b h
    have hfifo := pushByte_fifo_take (s := s.poisonIfBusy) b h
    obtain ⟨t, hrun, htfifo, htovfl⟩ := ih (s.poisonIfBusy.pushByte b).answerWrite (by simpa using hlen)
    refine ⟨t, ?_, ?_, ?_⟩
    · rwa [List.foldl_cons, andThen_next, exec_wrFifoDataReg]
    · simp only [State.answerWrite_fifo, State.answerWrite_params, State.pushByte_params, State.poisonIfBusy_params,
        hfifo, State.poisonIfBusy_fifo, take_append_of_take, List.append_assoc, List.singleton_append] at htfifo
      exact htfifo
    · rw [htovfl]
      by_cases hfull : s.fifo.length = s.params.fifoCapacity
      · simp [hfull]
      · simp [hfull, beq_false_of_ne hfull, Nat.add_assoc, Nat.add_comm 1]

end Sys2Proof.Machine
end

section
/-!
What one frame or codec transaction can do to the block, said once, and that it reads nothing of the state beyond the seven
items and the parameters (R10).
-/

namespace Sys2Proof.Machine

theorem SameBlock.refl (s : State) : SameBlock s s := ⟨rfl, rfl, rfl, rfl, rfl, rfl, rfl⟩

/-- What a single frame or a codec transaction `i` that leads from `s` to `t` did to the seven items: nothing, or the effect of
one of the two commands, of a write of DivIrqReg, or of an access to the FIFO. -/
inductive FrameEffect (s t : State) : Instr → Prop
  | unchanged (i : Instr) (h : SameBlock s t) : FrameEffect s t i
  | idle (i : Instr) (hi : i = .cmdIdle ∨ i = .wrCommandReg (commandByte s.params.cmdIdle))
      (h : SameBlock s.issueIdle t) : FrameEffect s t i
  | calcCrc (i : Instr) (hi : i = .cmdCalcCrc ∨ i = .wrCommandReg (commandByte s.params.cmdCalcCrc))
      (h : SameBlock s.issueCalcCrc t) : FrameEffect s t i
  | divIrq (d : Byte) (h : SameBlock (s.writeDivIrq d) t) : FrameEffect s t (.wrDivIrqReg d)
  | push (d : Byte) (h : SameBlock (s.poisonIfBusy.pushByte d) t) : FrameEffect s t (.wrFifoDataReg d)
  | pop (x : Byte) (h : SameBlock s.poisonIfBusy.dropHead t) : FrameEffect s t (.rdFifoDataReg x)
  | flush (d : Byte) (hd : d.getLsbD s.params.fifoFlushBit = true) (h : SameBlock s.poisonIfBusy.flushFifo t) :
      FrameEffect s t (.wrFifoLevelReg d)

/-- R82: a write of CommandReg that completes is one of the two commands. -/
theorem execWrCommandReg_effect {d : Byte} {s t : State} (e : execWrCommandReg d s = .next t) :
    FrameEffect s t (.wrCommandReg d) := by
  rw [execWrCommandReg_eq] at e
  split_ifs at e with hidle hcalc
  · cases e
    exact .idle _ (.inr (congrArg _ ((isCommand_iff _ _ _).1 hidle).1)) (.refl s.issueIdle)
  · cases e
    exact .calcCrc _ (.inr (congrArg _ ((isCommand_iff _ _ _).1 hcalc).1)) (.refl s.issueCalcCrc)

theorem execWrFifoLevelReg_effect {d : Byte} {s t : State} (e : execWrFifoLevelReg d s = .next t) :
    FrameEffect s t (.wrFifoLevelReg d) := by
  simp only [execWrFifoLevelReg, and_flushMask_eq_zero] at e
  split_ifs at e with hd
  · cases e
    exact .unchanged _ (.refl s)
  · cases e
    exact .flush d (by simpa using hd) (.refl s.poisonIfBusy.flushFifo)

/-- Every frame and codec transaction that completes has one of the effects of `FrameEffect`; a helper is two frames. -/
theorem exec_frameEffect {i : Instr} {s t : State} (hi : ∀ a x m, i ≠ .setBits a x m ∧ i ≠ .clrBits a x m)
    (e : exec i s = .next t) : FrameEffect s t i := by
  cases i with
  | cmdIdle =>
    cases e
    exact .idle _ (.inl rfl) (.refl s.issueIdle)
  | cmdCalcCrc =>
    cases e
    exact .calcCrc _ (.inl rfl) (.refl s.issueCalcCrc)
  | wrCommandReg d => exact execWrCommandReg_effect e
  | wrDivIrqReg d =>
    cases e
    exact .divIrq d (.refl (s.writeDivIrq d))
  | wrFifoDataReg d =>
    cases e
    exact .push d (.refl (s.poisonIfBusy.pushByte d))
  | rdFifoDataReg x =>
    cases e
    exact .pop x (.refl s.poisonIfBusy.dropHead)
  | wrFifoLevelReg d => exact execWrFifoLevelReg_effect e
  | wrOos a d =>
    obtain ⟨-, rfl⟩ := execWrOos_next (a := a) (d := d) e
    exact .unchanged _ (.refl s)
  | rdOos a x =>
    obtain ⟨-, rfl⟩ := execRdOos_next (a := a) (x := x) e
    exact .unchanged _ (.refl s)
  | rsvdFrame rd a d => cases e
  | setBits a x m => exact absurd rfl (hi a x m).1
  | clrBits a x m => exact absurd rfl (hi a x m).2
  | _ =>
    cases e
    exact .unchanged _ (.refl s)

/-- Settles O53, by the effects one frame can have (`exec_frameEffect`). -/
theorem resultAndOverflowHaveOneWriter : Obligations.ResultAndOverflowHaveOneWriter := by
  intro i s t hi e
  cases exec_frameEffect hi e with
  | unchanged _ h | idle _ _ h | calcCrc _ _ h | divIrq _ h | pop _ h =>
    obtain ⟨-, -, hovfl, -, hresult, -⟩ := h
    refine ⟨hresult, fun h0 h1 => ?_, fun h1 h0 => ?_⟩ <;> simp_all
  | push d h =>
    obtain ⟨-, -, hovfl, -, hresult, -⟩ := h
    refine ⟨by simpa using hresult, fun h0 h1 => ⟨⟨d, rfl⟩, ?_⟩, fun h1 h0 => ?_⟩ <;> simp_all
  | flush d hd h =>
    obtain ⟨-, -, hovfl, -, hresult, -⟩ := h
    exact ⟨hresult, fun h0 h1 => by simp_all, fun _ _ => ⟨d, rfl, hd⟩⟩

/-! R10: the effects of the frames depend on the seven items and the parameters alone. -/

namespace SameBlock

variable {s s' : State}

theorem poisonIfBusy (h : SameBlock s s') : SameBlock s.poisonIfBusy s'.poisonIfBusy := by
  simp_all [SameBlock]

theorem pushByte (h : SameBlock s s') (hp : s'.params = s.params) (d : Byte) :
    SameBlock (s.pushByte d) (s'.pushByte d) := by
  simp_all [SameBlock]

theorem dropHead (h : SameBlock s s') : SameBlock s.dropHead s'.dropHead := by
  simp_all [SameBlock]

theorem flushFifo (h : SameBlock s s') : SameBlock s.flushFifo s'.flushFifo := by
  simp_all [SameBlock]

theorem writeDivIrq (h : SameBlock s s') (hp : s'.params = s.params) (d : Byte) :
    SameBlock (s.writeDivIrq d) (s'.writeDivIrq d) := by
  simp_all [SameBlock]

/-- R112: an idle command that cancels nothing draws nothing. -/
theorem issueIdle (h : SameBlock s s') (hp : s'.params = s.params) (hbusy : s.crcBusy = false) :
    SameBlock s.issueIdle s'.issueIdle := by
  simp_all [SameBlock]

theorem issueCalcCrc (h : SameBlock s s') (hp : s'.params = s.params) : SameBlock s.issueCalcCrc s'.issueCalcCrc := by
  simp_all [SameBlock]

end SameBlock

/-- Two outcomes are the same for the block: both complete in one block, or both are refused for one reason. -/
inductive OutcomesAgree : StepOutcome → StepOutcome → Prop
  | next {t t' : State} (h : SameBlock t t') : OutcomesAgree (.next t) (.next t')
  | refused (r : Refusal) : OutcomesAgree (.refused r) (.refused r)

section

variable {s s' : State} (h : SameBlock s s') (hp : s'.params = s.params)
include h

theorem execWrOos_agree (a : RegAddr) (d : Byte) : OutcomesAgree (execWrOos a d s) (execWrOos a d s') := by
  unfold execWrOos
  split
  · exact .next h
  · exact .refused _
  · exact .refused _

theorem execRdOos_agree (a : RegAddr) (x : Byte) : OutcomesAgree (execRdOos a x s) (execRdOos a x s') := by
  unfold execRdOos
  split
  · exact .next h
  · exact .refused _
  · exact .refused _

include hp

theorem execWrCommandReg_agree (d : Byte) (hidle : s.crcBusy = true → d ≠ commandByte s.params.cmdIdle) :
    OutcomesAgree (execWrCommandReg d s) (execWrCommandReg d s') := by
  simp only [execWrCommandReg_eq, hp]
  split_ifs with h1 h2
  · have hbusy : s.crcBusy = false :=
      Bool.eq_false_iff.2 fun hb => hidle hb ((isCommand_iff _ _ _).1 h1).1
    exact .next (h.issueIdle hp hbusy)
  · exact .next (h.issueCalcCrc hp)
  · exact .refused _

theorem execWrFifoLevelReg_agree (d : Byte) : OutcomesAgree (execWrFifoLevelReg d s) (execWrFifoLevelReg d s') := by
  simp only [execWrFifoLevelReg, hp]
  split_ifs
  · exact .next h
  · exact .next h.poisonIfBusy.flushFifo

/-- R10: a frame or codec transaction does the same in two states of one block and one choice of the parameters, but for the
draw of a cancelling idle command (R112). -/
theorem exec_agree {i : Instr} (hi : ∀ a x m, i ≠ .setBits a x m ∧ i ≠ .clrBits a x m)
    (hidle : s.crcBusy = true → i ≠ .cmdIdle ∧ i ≠ .wrCommandReg (commandByte s.params.cmdIdle)) :
    OutcomesAgree (exec i s) (exec i s') := by
  cases i with
  | cmdIdle =>
    have hbusy : s.crcBusy = false := Bool.eq_false_iff.2 fun hb => (hidle hb).1 rfl
    exact .next (h.issueIdle hp hbusy)
  | cmdCalcCrc => exact .next (h.issueCalcCrc hp)
  | wrCommandReg d => exact execWrCommandReg_agree h hp d fun hb e => (hidle hb).2 (congrArg _ e)
  | wrDivIrqReg d => exact .next (h.writeDivIrq hp d)
  | wrFifoDataReg d => exact .next (h.poisonIfBusy.pushByte hp d)
  | rdFifoDataReg x => exact .next h.poisonIfBusy.dropHead
  | wrFifoLevelReg d => exact execWrFifoLevelReg_agree h hp d
  | wrOos a d => exact execWrOos_agree h a d
  | rdOos a x => exact execRdOos_agree h a x
  | rsvdFrame rd a d => exact .refused _
  | setBits a x m => exact absurd rfl (hi a x m).1
  | clrBits a x m => exact absurd rfl (hi a x m).2
  | _ => exact .next h

end

theorem OutcomesAgree.next_of_next {o o' : StepOutcome} (h : OutcomesAgree o o') {t : State} (e : o = .next t) :
    ∃ t', o' = .next t' ∧ SameBlock t t' := by
  cases h with
  | next hb =>
    cases e
    exact ⟨_, rfl, hb⟩
  | refused r => cases e

theorem OutcomesAgree.refused_of_refused {o o' : StepOutcome} (h : OutcomesAgree o o') {r : Refusal}
    (e : o = .refused r) : o' = .refused r := by
  cases h with
  | next hb => cases e
  | refused r' => exact e

/-- Settles O56, by the agreement of the two runs (`exec_agree`). -/
theorem sevenItemsAreTheWholeState : Obligations.SevenItemsAreTheWholeState := by
  intro i s s' hb hp hi hidle
  have hagree := exec_agree hb hp hi hidle
  exact ⟨fun t e => hagree.next_of_next e, fun r e => hagree.refused_of_refused e⟩

end Sys2Proof.Machine
end

section
/-!
Addresses the block does not own (R19, R20), and the state after reset (R29, R161).
-/

namespace Sys2Proof.Machine

/-- R19: the eleven named registers of other blocks. -/
theorem addrClass_of_outOfScope : ∀ a ∈ Config.outOfScopeAddrs, addrClass a = .outOfScope := by decide

theorem isInScope_eq_false_of_not_mem {a : RegAddr} (h : a ∉ Config.inScopeAddrs) : isInScope a = false := by
  simpa [isInScope] using h

/-- R20: every address beside the block's seven and the eleven of R19. -/
theorem addrClass_of_unnamed {a : RegAddr} (hin : a ∉ Config.inScopeAddrs) (hout : a ∉ Config.outOfScopeAddrs) :
    addrClass a = .unnamed := by
  simp [addrClass, isInScope_eq_false_of_not_mem hin, hout]

theorem execWrOos_of_outOfScope {a : RegAddr} (h : addrClass a = .outOfScope) (d : Byte) (s : State) :
    execWrOos a d s = .next s.answerWrite := by
  simp [execWrOos, h]

theorem execRdOos_of_outOfScope {a : RegAddr} (h : addrClass a = .outOfScope) (x : Byte) (s : State) :
    execRdOos a x s = .next (s.answer s.unspecByte) := by
  simp [execRdOos, h]

theorem execWrOos_of_unnamed {a : RegAddr} (h : addrClass a = .unnamed) (d : Byte) (s : State) :
    execWrOos a d s = .refused (.reservedRegister a) := by
  simp [execWrOos, h]

theorem execRdOos_of_unnamed {a : RegAddr} (h : addrClass a = .unnamed) (x : Byte) (s : State) :
    execRdOos a x s = .refused (.reservedRegister a) := by
  simp [execRdOos, h]

/-- R80, R96: a write frame to an address the block does not own is WR.OOS. -/
theorem memWrite_of_not_inScope {a : RegAddr} (h : isInScope a = false) (d : Byte) (s : State) :
    memWrite a d s = execWrOos a d s := by
  obtain ⟨h1, h2, h3, h4, h5, h6, h7⟩ := (isInScope_eq_false_iff a).1 h
  simp only [memWrite, h1, h2, h3, h4, h5, h6, h7, if_false]

/-- R80, R97: a read frame to an address the block does not own is RD.OOS. -/
theorem readRegister_of_not_inScope {a : RegAddr} (h : isInScope a = false) (x : Byte) (s : State) :
    readRegister a x s = execRdOos a x s := by
  obtain ⟨h1, h2, h3, h4, h5, h6, h7⟩ := (isInScope_eq_false_iff a).1 h
  simp only [readRegister, h1, h2, h3, h4, h5, h6, h7, if_false]

/-- Settles O28: at the eleven addresses a frame is answered and nothing else. -/
theorem namedForeignRegistersHaveNoEffect : Obligations.NamedForeignRegistersHaveNoEffect := by
  intro a d s ha
  have hclass := addrClass_of_outOfScope a ha
  exact ⟨⟨s.answerWrite, execWrOos_of_outOfScope hclass d s, .refl s, ⟨rfl, rfl, rfl, rfl, rfl⟩⟩,
    ⟨s.answer s.unspecByte, execRdOos_of_outOfScope hclass d s, .refl s, ⟨rfl, rfl, rfl, rfl, rfl⟩⟩⟩

/-- Settles O29: an unnamed address reaches WR.OOS and RD.OOS, which refuse it. -/
theorem unnamedAddressesAreRefused : Obligations.UnnamedAddressesAreRefused := by
  intro a d s hin hout
  have hscope : isInScope a = false := isInScope_eq_false_of_not_mem hin
  have hclass : addrClass a = .unnamed := addrClass_of_unnamed hin hout
  have hwrite := execWrOos_of_unnamed hclass d s
  exact ⟨(memWrite_of_not_inScope hscope d s).trans hwrite,
    (readRegister_of_not_inScope hscope 0x00 s).trans (execRdOos_of_unnamed hclass 0x00 s), hwrite,
    execRdOos_of_unnamed hclass d s⟩

/-- Settles O47: an idle engine with an empty FIFO meets R30 (`State.BlockInv.of_idle`), and no completion is due in it. -/
theorem resetState : Obligations.ResetState := by
  refine ⟨⟨rfl, rfl, rfl, rfl, rfl, rfl, rfl⟩, ?_, fun s => ⟨resetEvent_blockReset s, rfl, ⟨rfl, rfl, rfl, rfl, rfl⟩⟩⟩
  exact (State.inv_iff _).2 ⟨.of_idle (by decide) (Nat.zero_le _) rfl rfl rfl, Nat.le_refl _⟩

end Sys2Proof.Machine
end

section
/-!
The access primitives as frames (20_memory.md R43), and the done flag under the read-modify-write of DivIrqReg and along a run
(R51, R53).
-/

namespace Sys2Proof.Machine

/-! The access primitives (R43). -/

/-- R61: the address byte of a write frame, computed on the six address bits. -/
theorem writeAddrByte_eq_shift : ∀ a : RegAddr, writeAddrByte a.toNat = (a.setWidth 8 <<< 1) &&& 0x7E := by decide

/-- R61: the address byte of a read frame, computed on the six address bits. -/
theorem readAddrByte_eq_shift : ∀ a : RegAddr, readAddrByte a.toNat = ((a.setWidth 8 <<< 1) &&& 0x7E) ||| 0x80 := by
  decide

theorem runTransaction_writeFrame (a : RegAddr) (d : Byte) (s : State) :
    runTransaction (writeFrame a d) s = memWrite a d s := by
  rw [runTransaction_of_decode (decode_writeFrame s.params a d), memWrite_eq_exec]

theorem runTransaction_readFrame (a : RegAddr) (x : Byte) (s : State) :
    runTransaction (readFrame a x) s = readRegister a x s := by
  rw [runTransaction_of_decode (decode_readFrame s.params a x), readRegister_eq_exec]

/-- Settles O7: an access primitive is the operation its frame decodes to (`memWrite_eq_exec`, `readRegister_eq_exec`). -/
theorem accessPrimitivesAreFrames : Obligations.AccessPrimitivesAreFrames := by
  intro a v s
  rw [← readAddrByte_eq_shift, ← writeAddrByte_eq_shift]
  exact ⟨(runTransaction_writeFrame a v s).symm, (runTransaction_readFrame a 0x00 s).symm⟩

/-! The read-modify-write of DivIrqReg (R53). -/

/-- R47, R114: the engine completes between two frames when it is due. -/
theorem betweenFrames_of_due {s : State} (h : s.engineDue = true) : s.betweenFrames = s.crcComplete.hostTurn := by
  simp [State.betweenFrames, h]

/-- R114: between two frames only the completion sets the done flag. -/
theorem betweenFrames_crcIrq (s : State) : s.betweenFrames.crcIrq = (s.crcIrq || s.engineDue) := by
  rcases betweenFrames_cases s with ⟨hdue, h⟩ | ⟨hdue, h⟩ <;> simp [h, hdue]

/-- R114: the result of a completion that nothing poisoned. -/
theorem completionResult_of_not_poisoned {s : State} (h : s.crcPoison = false) :
    s.completionResult = crcOf s.params.crcFn s.fifo := by
  simp [State.completionResult, h]

/-- R53: the state after the two frames of a helper on DivIrqReg, a read and then a write of `d`. -/
def State.readWriteDivIrq (s : State) (d : Byte) : State :=
  ((s.answer s.divIrqValue).betweenFrames.writeDivIrq d).answerWrite

/-- R98: SETBITS of DivIrqReg writes back the value read with the bits of the mask set. -/
theorem exec_setBits_divIrqReg (x mask : Byte) (s : State) :
    exec (.setBits Config.addrDivIrqReg x mask) s = .next (s.readWriteDivIrq (s.divIrqValue ||| mask)) := rfl

/-- R99: CLRBITS of DivIrqReg writes back the value read with the bits of the mask cleared. -/
theorem exec_clrBits_divIrqReg (x mask : Byte) (s : State) :
    exec (.clrBits Config.addrDivIrqReg x mask) s = .next (s.readWriteDivIrq (s.divIrqValue &&& ~~~mask)) := rfl

theorem readWriteDivIrq_sameHost (s : State) (d : Byte) : SameHost s (s.readWriteDivIrq d) :=
  (betweenFrames_keeps (s.answer s.divIrqValue)).1

/-- R53, R84: under the default write rule the flag is 1 afterwards when it was 1 or the engine completed in between, and the
byte written back has a 1 at the CRC bit. -/
theorem readWriteDivIrq_crcIrq {s : State} (hrule : s.params.divIrqWriteRule = .w0c) (d : Byte) :
    (s.readWriteDivIrq d).crcIrq = ((s.crcIrq || s.engineDue) && d.getLsbD s.params.divIrqCrcBit) := by
  obtain ⟨⟨-, -, -, -, hparams⟩, -⟩ := betweenFrames_keeps (s.answer s.divIrqValue)
  have hirq : (s.answer s.divIrqValue).betweenFrames.crcIrq = (s.crcIrq || s.engineDue) :=
    betweenFrames_crcIrq (s.answer s.divIrqValue)
  simp only [State.readWriteDivIrq, State.answerWrite_crcIrq, State.writeDivIrq_crcIrq, crcIrqAfterWrite_eq, hirq, hparams,
    State.answer_params, hrule]

/-- R53, R114: a completion that is due takes place between the two frames. -/
theorem readWriteDivIrq_of_due {s : State} (hdue : s.engineDue = true) (hpoison : s.crcPoison = false) (d : Byte) :
    (s.readWriteDivIrq d).crcBusy = false
      ∧ (s.readWriteDivIrq d).crcResult = some (crcOf s.params.crcFn s.fifo) := by
  have hcomplete := betweenFrames_of_due (s := s.answer s.divIrqValue) hdue
  have hresult := completionResult_of_not_poisoned (s := s.answer s.divIrqValue) hpoison
  simp [State.readWriteDivIrq, hcomplete, hresult]

/-- R53, R170: writing a 0 at the CRC bit loses a completion between the two frames. -/
theorem readWriteDivIrq_loses_completion {s : State} {d : Byte} (hrule : s.params.divIrqWriteRule = .w0c)
    (hdue : s.engineDue = true) (hpoison : s.crcPoison = false) (hd : d.getLsbD s.params.divIrqCrcBit = false) :
    (s.readWriteDivIrq d).crcIrq = false ∧ (s.readWriteDivIrq d).crcBusy = false
      ∧ (s.readWriteDivIrq d).crcResult = some (crcOf s.params.crcFn s.fifo) :=
  ⟨by rw [readWriteDivIrq_crcIrq hrule, hd, Bool.and_false], readWriteDivIrq_of_due hdue hpoison d⟩

/-- Settles O35: the read returned a 0 at the CRC bit and the mask leaves it 0, so the write back has a 0 there
(`readWriteDivIrq_loses_completion`). -/
theorem readModifyWriteLosesTheFlag : Obligations.ReadModifyWriteLosesTheFlag := by
  intro x mask s hrule hmask hirq hbusy hpoison hwait
  have hdue : s.engineDue = true := (engineDue_iff s).2 ⟨hbusy, hwait⟩
  have hread : s.divIrqValue.getLsbD s.params.divIrqCrcBit = false := (divIrqValue_bit s).trans hirq
  have hset : (s.divIrqValue ||| mask).getLsbD s.params.divIrqCrcBit = false := by
    rw [BitVec.getLsbD_or, hread, hmask, Bool.or_false]
  have hclr : (s.divIrqValue &&& ~~~mask).getLsbD s.params.divIrqCrcBit = false := by
    rw [BitVec.getLsbD_and, hread, Bool.false_and]
  exact ⟨⟨_, exec_setBits_divIrqReg x mask s, readWriteDivIrq_loses_completion hrule hdue hpoison hset⟩,
    ⟨_, exec_clrBits_divIrqReg x mask s, readWriteDivIrq_loses_completion hrule hdue hpoison hclr⟩⟩

/-- Settles O36: with the CRC bit in the mask the write back has a 1 there, which leaves the flag as it stands
(`readWriteDivIrq_crcIrq`). -/
theorem setBitsWithTheCrcBitKeepsTheFlag : Obligations.SetBitsWithTheCrcBitKeepsTheFlag := by
  intro x mask s hrule hmask
  refine ⟨_, exec_setBits_divIrqReg x mask s, ?_, readWriteDivIrq_sameHost s _⟩
  rw [readWriteDivIrq_crcIrq hrule, BitVec.getLsbD_or, hmask, Bool.or_true, Bool.and_true]

/-! The done flag and the result along a run (R51). -/

/-- R51: the write rule is the default one, and a set done flag stands for a written result. -/
structure State.FlagHasResult (s : State) : Prop where
  rule : s.params.divIrqWriteRule = .w0c
  result : s.crcIrq = true → s.crcResult.isSome = true

/-- R51: what does not touch the parameters, the flag and the result keeps the relation. -/
theorem State.FlagHasResult.of_eq {s t : State} (h : s.FlagHasResult) (hparams : t.params = s.params)
    (hirq : t.crcIrq = s.crcIrq) (hresult : t.crcResult = s.crcResult) : t.FlagHasResult where
  rule := by rw [hparams, h.rule]
  result := by simpa only [hirq, hresult] using h.result

/-- R84: under the default write rule a write of DivIrqReg never sets the flag. -/
theorem State.FlagHasResult.writeDivIrq {s : State} (h : s.FlagHasResult) (d : Byte) : (s.writeDivIrq d).FlagHasResult where
  rule := h.rule
  result hirq := by
    rw [State.writeDivIrq_crcIrq, crcIrqAfterWrite_eq, h.rule] at hirq
    exact h.result (Bool.and_eq_true_iff.1 hirq).1

/-- R51: the completion writes flag and result together, a write clears the flag only, and the reset event clears both. -/
theorem flagHasResult_keptByParts : KeptByParts State.FlagHasResult where
  read _ _ _ _ h e := by
    obtain ⟨⟨-, -, -, -, hparams⟩, -, -, ⟨-, hirq, -, -, hresult, -⟩ | ⟨-, -, hirq, -, -, hresult, -⟩⟩ :=
      readRegister_next e
    all_goals exact h.of_eq hparams hirq hresult
  cmdIdle _ h := { h with }
  cmdCalcCrc _ h := { h with }
  divIrq _ d h := { h.writeDivIrq d with }
  push s d h := h.of_eq (s.poisonIfBusy.pushByte_params d) (s.poisonIfBusy.pushByte_crcIrq d)
    (s.poisonIfBusy.pushByte_crcResult d)
  flush _ h := { h with }
  ignored _ h := { h with }
  turn _ h := { h with }
  complete _ h _ := ⟨h.rule, fun _ => rfl⟩
  result _ _ h := { h with }
  codec _ _ h := { h with }
  reset _ h := ⟨h.rule, fun hirq => nomatch hirq⟩

/-- Settles O49, by the induction over the parts of a step (`KeptByParts.step`). -/
theorem doneFlagMeansWrittenResult : Obligations.DoneFlagMeansWrittenResult :=
  fun _ _ hrule hflag e => (flagHasResult_keptByParts.step (fun _ h => { h with }) ⟨hrule, hflag⟩ e).result

end Sys2Proof.Machine
end

section
/-!
Encoding: decoding and encoding are inverse to each other on every transaction (30_encoding.md R60, R61, R64, R65, R68, R70).
-/

namespace Sys2Proof

/-! Decoding what was encoded. -/

theorem decodeCommand_of_idle {p : Config.Parameters} {d : Byte} (h : isCommand p p.cmdIdle d = true) :
    decodeCommand p d = .cmdIdle := by
  simp [decodeCommand, h]

/-- R64: the byte of CRC-calculate is no idle command when the two codes differ. -/
theorem decodeCommand_of_calcCrc {p : Config.Parameters} {d : Byte} (h : isCommand p p.cmdCalcCrc d = true)
    (hne : p.cmdCalcCrc ≠ p.cmdIdle) : decodeCommand p d = .cmdCalcCrc := by
  have hidle : isCommand p p.cmdIdle d = false := by
    refine Bool.eq_false_iff.2 fun hd => hne ?_
    obtain ⟨hcalc, -⟩ := (isCommand_iff p _ d).1 h
    obtain ⟨hcode, -⟩ := (isCommand_iff p _ d).1 hd
    exact (commandByte_inj _ _).1 (hcalc.symm.trans hcode)
  simp [decodeCommand, hidle, h]

theorem decodeCommand_of_none {p : Config.Parameters} {d : Byte} (hidle : isCommand p p.cmdIdle d = false)
    (hcalc : isCommand p p.cmdCalcCrc d = false) : decodeCommand p d = .wrCommandReg d := by
  simp [decodeCommand, hidle, hcalc]

/-- R64: a byte that is not the code's own is not that command. -/
theorem isCommand_of_ne {p : Config.Parameters} {code : BitVec 4} {d : Byte} (h : d ≠ commandByte code) :
    isCommand p code d = false :=
  Bool.eq_false_iff.2 fun hd => h ((isCommand_iff p code d).1 hd).1

theorem decodeWrite_of_not_inScope {a : RegAddr} (h : isInScope a = false) (p : Config.Parameters) (d : Byte) :
    decodeWrite p a d = .wrOos a d := by
  obtain ⟨h1, h2, h3, h4, h5, h6, h7⟩ := (isInScope_eq_false_iff a).1 h
  simp [decodeWrite, h1, h2, h3, h4, h5, h6, h7]

theorem decodeRead_of_not_inScope {a : RegAddr} (h : isInScope a = false) (x : Byte) : decodeRead a x = .rdOos a x := by
  obtain ⟨h1, h2, h3, h4, h5, h6, h7⟩ := (isInScope_eq_false_iff a).1 h
  simp [decodeRead, h1, h2, h3, h4, h5, h6, h7]

/-- R62: a frame whose address byte has bit 0 set is RSVD.FRAME, whatever its other bits. -/
theorem decodeFrame_of_reserved (p : Config.Parameters) {b : Byte} (h : b.getLsbD 0 = true) (d : Byte) :
    decodeFrame p (frameOfBytes b d) = .rsvdFrame (b.getLsbD 7) (b.extractLsb' 1 6) d := by
  simp only [decodeFrame, frameReservedBit_frameOfBytes, h, if_true, frameIsRead_frameOfBytes, frameAddr_frameOfBytes,
    frameData_frameOfBytes]

theorem decodeFrame_of_read (p : Config.Parameters) {b : Byte} (h0 : b.getLsbD 0 = false) (h7 : b.getLsbD 7 = true)
    (x : Byte) : decodeFrame p (frameOfBytes b x) = decodeRead (b.extractLsb' 1 6) x := by
  simp only [decodeFrame, frameReservedBit_frameOfBytes, frameIsRead_frameOfBytes, frameAddr_frameOfBytes,
    frameData_frameOfBytes, h0, h7, Bool.false_eq_true, if_false, if_true]

theorem decodeFrame_of_write (p : Config.Parameters) {b : Byte} (h0 : b.getLsbD 0 = false) (h7 : b.getLsbD 7 = false)
    (d : Byte) : decodeFrame p (frameOfBytes b d) = decodeWrite p (b.extractLsb' 1 6) d := by
  simp only [decodeFrame, frameReservedBit_frameOfBytes, frameIsRead_frameOfBytes, frameAddr_frameOfBytes,
    frameData_frameOfBytes, h0, h7, Bool.false_eq_true, if_false]

theorem decode_reservedFrame (p : Config.Parameters) (rd : Bool) (a : RegAddr) (d : Byte) :
    decode p (reservedFrame rd a d) = .ok (.rsvdFrame rd a d) := by
  have hfields : ∀ (rd : Bool) (a : RegAddr), (BitVec.ofBool rd ++ a ++ 1#1).getLsbD 0 = true
      ∧ (BitVec.ofBool rd ++ a ++ 1#1).getLsbD 7 = rd ∧ (BitVec.ofBool rd ++ a ++ 1#1).extractLsb' 1 6 = a := by decide
  obtain ⟨hreserved, hread, haddr⟩ := hfields rd a
  rw [reservedFrame, decode, decodeFrame_of_reserved p hreserved, hread, haddr]

theorem decode_setBits (p : Config.Parameters) (a : RegAddr) (x mask : Byte) :
    decode p (.helper .setBits (helperWord a x mask)) = .ok (.setBits a x mask) := by
  simp only [decode, decodeHelper, isHelperWord_helperWord, if_true, helperWord_readAddr, helperWord_ignored, helperWord_data]

theorem decode_clrBits (p : Config.Parameters) (a : RegAddr) (x mask : Byte) :
    decode p (.helper .clrBits (helperWord a x (~~~mask))) = .ok (.clrBits a x mask) := by
  simp only [decode, decodeHelper, isHelperWord_helperWord, if_true, helperWord_readAddr, helperWord_ignored, helperWord_data,
    BitVec.not_not]

/-- Settles O1, row by row: a register's frame decodes by its address, and where two rows match well-formedness says which
one it is. -/
theorem decodeOfEncodeIsIdentity : Obligations.DecodeOfEncodeIsIdentity := by
  intro p i h
  cases i with
  | cmdIdle =>
    rw [encode, decode_writeFrame]
    exact congrArg _ (decodeCommand_of_idle h)
  | cmdCalcCrc =>
    simp only [Instr.wellFormed, Bool.and_eq_true, bne_iff_ne] at h
    rw [encode, decode_writeFrame]
    exact congrArg _ (decodeCommand_of_calcCrc h.1 h.2)
  | wrCommandReg d =>
    simp only [Instr.wellFormed, Bool.and_eq_true, Bool.not_eq_true'] at h
    rw [encode, decode_writeFrame]
    exact congrArg _ (decodeCommand_of_none h.1 h.2)
  | wrOos a d =>
    have hout : isInScope a = false := by simpa [Instr.wellFormed] using h
    rw [encode, decode_writeFrame, decodeWrite_of_not_inScope hout]
  | rdOos a x =>
    have hout : isInScope a = false := by simpa [Instr.wellFormed] using h
    rw [encode, decode_readFrame, decodeRead_of_not_inScope hout]
  | rsvdFrame rd a d => exact decode_reservedFrame p rd a d
  | accEnc b0 b1 b2 b3 x => exact congrArg _ (decodeCodec_encodeAccEnc b0 b1 b2 b3 x)
  | accDec b0 b1 b2 b3 => exact congrArg _ (decodeCodec_encodeAccDec b0 b1 b2 b3)
  | setBits a x mask => exact decode_setBits p a x mask
  | clrBits a x mask => exact decode_clrBits p a x mask
  | wrDivIrqReg d | wrErrorReg d | wrFifoDataReg d | wrFifoLevelReg d | wrCrcResultRegM d | wrCrcResultRegL d =>
    exact decode_writeFrame p _ d
  | rdCommandReg x | rdDivIrqReg x | rdErrorReg x | rdFifoDataReg x | rdFifoLevelReg x | rdCrcResultRegM x
  | rdCrcResultRegL x => exact decode_readFrame p _ x

/-! Encoding what was decoded. -/

/-- R64: a command's own byte is the byte that was decoded to it. -/
theorem encode_decodeCommand (p : Config.Parameters) (d : Byte) :
    encode p (decodeCommand p d) = writeFrame Config.addrCommandReg d := by
  unfold decodeCommand
  split_ifs with hidle hcalc
  · rw [encode, ← ((isCommand_iff p _ d).1 hidle).1]
  · rw [encode, ← ((isCommand_iff p _ d).1 hcalc).1]
  · rfl

theorem encode_decodeWrite (p : Config.Parameters) (a : RegAddr) (d : Byte) :
    encode p (decodeWrite p a d) = writeFrame a d := by
  unfold decodeWrite
  split_ifs with hcmd
  · rw [encode_decodeCommand, hcmd]
  all_goals simp_all [encode]

theorem encode_decodeRead (p : Config.Parameters) (a : RegAddr) (x : Byte) :
    encode p (decodeRead a x) = readFrame a x := by
  unfold decodeRead
  split_ifs
  all_goals simp_all [encode]

/-- R61, R66: the two bytes of a frame come back, the address byte from its direction, its address and its reserved bit. -/
theorem encode_decodeFrame (p : Config.Parameters) (b d : Byte) :
    encode p (decodeFrame p (frameOfBytes b d)) = .bus [b, d] := by
  have hsplit := addrByte_split b
  cases h0 : b.getLsbD 0 with
  | true =>
    rw [decodeFrame_of_reserved p h0, encode, reservedFrame]
    exact congrArg (fun c => Transaction.bus [c, d]) (h0 ▸ hsplit).symm
  | false =>
    cases h7 : b.getLsbD 7 with
    | true =>
      rw [decodeFrame_of_read p h0 h7, encode_decodeRead, readFrame, readAddrByte_eq]
      exact congrArg (fun c => Transaction.bus [c, d]) (h7 ▸ h0 ▸ hsplit).symm
    | false =>
      rw [decodeFrame_of_write p h0 h7, encode_decodeWrite, writeFrame, writeAddrByte_eq]
      exact congrArg (fun c => Transaction.bus [c, d]) (h7 ▸ h0 ▸ hsplit).symm

/-- R68: a codec word with bit 32 set is its four bytes. -/
theorem encodeAccDec_fields {t : CodecWord} (h : t.getLsbD 32 = true) :
    encodeAccDec (t.extractLsb' 0 8) (t.extractLsb' 8 8) (t.extractLsb' 16 8) (t.extractLsb' 24 8) = t := by
  apply BitVec.eq_of_getLsbD_eq
  intro k hk
  simp only [encodeAccDec, BitVec.getLsbD_append, BitVec.getLsbD_extractLsb']
  interval_cases k <;> simp
  exact h

/-- R68: a codec word with bit 32 clear is its four codes and its ignored bits. -/
theorem encodeAccEnc_fields {t : CodecWord} (h : t.getLsbD 32 = false) :
    encodeAccEnc (t.extractLsb' 0 3) (t.extractLsb' 3 3) (t.extractLsb' 6 3) (t.extractLsb' 9 3) (t.extractLsb' 12 20)
      = t := by
  apply BitVec.eq_of_getLsbD_eq
  intro k hk
  simp only [encodeAccEnc, BitVec.getLsbD_append, BitVec.getLsbD_extractLsb']
  interval_cases k <;> simp
  exact h

theorem encode_decodeCodec (p : Config.Parameters) (t : CodecWord) : encode p (decodeCodec t) = .codec t := by
  unfold decodeCodec
  split_ifs with h
  · exact congrArg _ (encodeAccDec_fields h)
  · exact congrArg _ (encodeAccEnc_fields (Bool.eq_false_iff.2 h))

/-- R70: a read frame and a write frame of one register are that register's address, the ignored byte and the data byte. -/
theorem helperWord_fields {w : HelperWord} (h : isHelperWord w = true) :
    helperWord (w.extractLsb' 25 6) (w.extractLsb' 16 8) (w.extractLsb' 0 8) = w := by
  simp only [isHelperWord, Bool.and_eq_true, Bool.not_eq_true', beq_iff_eq] at h
  obtain ⟨⟨⟨⟨h31, h24⟩, h15⟩, h8⟩, haddr⟩ := h
  have hsame : ∀ j < 6, w.getLsbD (25 + j) = w.getLsbD (9 + j) := by
    intro j hj
    have hj' := congrArg (fun v : RegAddr => v.getLsbD j) haddr
    simpa [hj] using hj'
  apply BitVec.eq_of_getLsbD_eq
  intro k hk
  simp only [helperWord, BitVec.getLsbD_append, BitVec.getLsbD_extractLsb']
  interval_cases k <;> simp
  · exact h8
  · exact hsame 0 (by decide)
  · exact hsame 1 (by decide)
  · exact hsame 2 (by decide)
  · exact hsame 3 (by decide)
  · exact hsame 4 (by decide)
  · exact hsame 5 (by decide)
  · exact h15
  · exact h24
  · exact h31

theorem encode_of_decodeHelper (p : Config.Parameters) {k : Helper} {w : HelperWord} {i : Instr}
    (h : decodeHelper k w = .ok i) : encode p i = .helper k w := by
  unfold decodeHelper at h
  split_ifs at h with hword
  cases k with
  | setBits =>
    cases h
    rw [encode, helperWord_fields hword]
  | clrBits =>
    cases h
    rw [encode, BitVec.not_not, helperWord_fields hword]

/-- R60, R68, R70: no form of transaction loses a bit. -/
theorem encode_of_decode {p : Config.Parameters} {t : Transaction} {i : Instr} (h : decode p t = .ok i) :
    encode p i = t := by
  unfold decode at h
  split at h
  case h_1 =>
    cases h
    exact encode_decodeFrame p _ _
  case h_2 => cases h
  case h_3 =>
    cases h
    exact encode_decodeCodec p _
  case h_4 => exact encode_of_decodeHelper p h

/-- Settles O2: `decode_wellFormed`, and `encode_of_decode` for each form of transaction. -/
theorem encodeOfDecodeIsIdentity : Obligations.EncodeOfDecodeIsIdentity :=
  fun _ _ _ h => ⟨decode_wellFormed h, encode_of_decode h⟩

end Sys2Proof
end

section
/-!
The frame decoder against the priorities of the opcode table (30_encoding.md R66, R70), and the words written out in the spec.
-/

namespace Sys2Proof

/-- The rows that say nothing of the data byte: all but the two commands'. -/
def addressRows : List FrameRow := (frameRows Config.Parameters.defaults).drop 2

/-- R64: the row of a command: a write of CommandReg with the byte of its code. -/
def commandRow (n : Nat) (code : BitVec 4) : FrameRow := ⟨n, frameOfBytes 0x02 (commandByte code), 0xFFFF, 3⟩

theorem frameRows_eq (p : Config.Parameters) :
    frameRows p = commandRow 0 p.cmdIdle :: commandRow 1 p.cmdCalcCrc :: addressRows := rfl

theorem commandRow_covers (n : Nat) (code : BitVec 4) (b d : Byte) :
    (commandRow n code).covers (frameOfBytes b d) = true ↔ b = 0x02 ∧ d = commandByte code := by
  have hmask : (0xFFFF : FrameWord) = frameOfBytes (BitVec.allOnes 8) (BitVec.allOnes 8) := by decide
  simp only [commandRow, FrameRow.covers, beq_iff_eq, hmask, frameOfBytes_and_eq, BitVec.and_allOnes]

/-- Whether an address row covers a frame word is told by the address byte alone. -/
theorem addressRows_covers {r : FrameRow} (h : r ∈ addressRows) (b d : Byte) :
    r.covers (frameOfBytes b d) = r.covers (frameOfBytes b 0x00) := by
  have hbytes : ∀ r ∈ addressRows, r.mask = frameOfBytes (r.mask.extractLsb' 8 8) 0x00
      ∧ r.value = frameOfBytes (r.value.extractLsb' 8 8) 0x00 := by decide
  obtain ⟨hmask, hvalue⟩ := hbytes r h
  rw [Bool.eq_iff_iff, FrameRow.covers, FrameRow.covers, beq_iff_eq, beq_iff_eq, hmask, hvalue, frameOfBytes_and_eq,
    frameOfBytes_and_eq]
  simp

/-- The address byte 0x02 is a write of CommandReg, whose row is found at the second level (R64). -/
theorem decodeFrame_commandReg (p : Config.Parameters) (d : Byte) :
    decodeFrame p (frameOfBytes 0x02 d) = decodeCommand p d := by
  rw [decodeFrame_of_write p (by decide) (by decide)]
  rfl

theorem decodeRead_tableRow (a : RegAddr) (x y : Byte) : (decodeRead a x).tableRow = (decodeRead a y).tableRow := by
  unfold decodeRead
  split_ifs <;> rfl

theorem decodeWrite_tableRow (p q : Config.Parameters) {a : RegAddr} (h : a ≠ Config.addrCommandReg) (d e : Byte) :
    (decodeWrite p a d).tableRow = (decodeWrite q a e).tableRow := by
  unfold decodeWrite
  rw [if_neg h, if_neg h]
  split_ifs <;> rfl

/-- R65: but for a write of CommandReg, a frame's row is told by its address byte alone. -/
theorem decodeFrame_tableRow (p q : Config.Parameters) {b : Byte} (hb : b ≠ 0x02) (d e : Byte) :
    (decodeFrame p (frameOfBytes b d)).tableRow = (decodeFrame q (frameOfBytes b e)).tableRow := by
  cases h0 : b.getLsbD 0 with
  | true => rw [decodeFrame_of_reserved p h0, decodeFrame_of_reserved q h0, Instr.tableRow, Instr.tableRow]
  | false =>
    cases h7 : b.getLsbD 7 with
    | true => rw [decodeFrame_of_read p h0 h7, decodeFrame_of_read q h0 h7, decodeRead_tableRow _ d e]
    | false =>
      have haddr : b.extractLsb' 1 6 ≠ Config.addrCommandReg := by
        intro h
        have hsplit := addrByte_split b
        rw [h0, h7, h] at hsplit
        exact hb hsplit
      rw [decodeFrame_of_write p h0 h7, decodeFrame_of_write q h0 h7, decodeWrite_tableRow p q haddr d e]

/-- R70: a row that covers the word and whose priority is above that of every other row that does. -/
abbrev FrameRow.IsTop (r : FrameRow) (rows : List FrameRow) (w : FrameWord) : Prop :=
  r.covers w = true ∧ ∀ r' ∈ rows, r'.covers w = true → r'.row ≠ r.row → r'.priority < r.priority

/-- R66, R70: of the address rows the decoder's is the top one; at 0x02 the top one is WR.CommandReg's, below a command's. -/
theorem addressRows_top : ∀ b : Byte, ∃ r ∈ addressRows,
    r.row = (if b = 0x02 then 2 else (decodeFrame Config.Parameters.defaults (frameOfBytes b 0x00)).tableRow)
      ∧ r.IsTop addressRows (frameOfBytes b 0x00) := by
  decide

/-- Where neither command's row covers the word, the top row is the top address row. -/
theorem exists_top_of_no_command {p : Config.Parameters} {b d : Byte}
    (hidle : ¬ (b = 0x02 ∧ d = commandByte p.cmdIdle)) (hcalc : ¬ (b = 0x02 ∧ d = commandByte p.cmdCalcCrc)) :
    ∃ r ∈ frameRows p, r.row = (decodeFrame p (frameOfBytes b d)).tableRow ∧ r.IsTop (frameRows p) (frameOfBytes b d) := by
  obtain ⟨r, hr, hrow, hcovers, htop⟩ := addressRows_top b
  refine ⟨r, List.mem_cons_of_mem _ (List.mem_cons_of_mem _ hr), ?_, (addressRows_covers hr b d).trans hcovers, ?_⟩
  · rw [hrow]
    split_ifs with hb
    · subst hb
      have hnoIdle := isCommand_of_ne (p := p) fun h => hidle ⟨rfl, h⟩
      have hnoCalc := isCommand_of_ne (p := p) fun h => hcalc ⟨rfl, h⟩
      rw [decodeFrame_commandReg, decodeCommand_of_none hnoIdle hnoCalc, Instr.tableRow]
    · exact decodeFrame_tableRow _ _ hb _ _
  · intro r' hr' hcov
    rw [frameRows_eq, List.mem_cons, List.mem_cons] at hr'
    rcases hr' with rfl | rfl | hr'
    · exact absurd ((commandRow_covers _ _ _ _).1 hcov) hidle
    · exact absurd ((commandRow_covers _ _ _ _).1 hcov) hcalc
    · exact htop r' hr' ((addressRows_covers hr' b d).symm.trans hcov)

/-- A command's row that covers a word is the top one, since the other command has another byte. -/
theorem commandRow_isTop {p : Config.Parameters} (hne : p.cmdIdle ≠ p.cmdCalcCrc) {r : FrameRow} {d : Byte}
    (hr : r = commandRow 0 p.cmdIdle ∨ r = commandRow 1 p.cmdCalcCrc) (hcov : r.covers (frameOfBytes 0x02 d) = true) :
    r.IsTop (frameRows p) (frameOfBytes 0x02 d) := by
  have hone : ∀ {b : Byte}, b = 0x02 ∧ d = commandByte p.cmdIdle → b = 0x02 ∧ d = commandByte p.cmdCalcCrc → False :=
    fun h h' => hne ((commandByte_inj _ _).1 (h.2.symm.trans h'.2))
  have hbelow : ∀ r' ∈ addressRows, r'.covers (frameOfBytes 0x02 0x00) = true → r'.priority < 3 := by decide
  refine ⟨hcov, fun r' hr' hcov' hrow => ?_⟩
  rw [frameRows_eq, List.mem_cons, List.mem_cons] at hr'
  rcases hr' with rfl | rfl | hr'
  · rcases hr with rfl | rfl
    · exact absurd rfl hrow
    · exact (hone ((commandRow_covers _ _ _ _).1 hcov') ((commandRow_covers _ _ _ _).1 hcov)).elim
  · rcases hr with rfl | rfl
    · exact (hone ((commandRow_covers _ _ _ _).1 hcov) ((commandRow_covers _ _ _ _).1 hcov')).elim
    · exact absurd rfl hrow
  · have h3 := hbelow r' hr' ((addressRows_covers hr' 0x02 d).symm.trans hcov')
    rcases hr with rfl | rfl <;> exact h3

/-- R64: under consistent parameters the byte of each command's code is that command. -/
theorem isCommand_commandByte_of_consistent {p : Config.Parameters} (h : p.consistent = true) :
    isCommand p p.cmdIdle (commandByte p.cmdIdle) = true ∧ isCommand p p.cmdCalcCrc (commandByte p.cmdCalcCrc) = true := by
  simp only [Config.Parameters.consistent, Bool.and_eq_true, beq_iff_eq] at h
  obtain ⟨⟨⟨-, hidle⟩, hcalc⟩, -⟩ := h
  exact ⟨(isCommand_iff p _ _).2 ⟨rfl, hidle⟩, (isCommand_iff p _ _).2 ⟨rfl, hcalc⟩⟩

/-- Settles O3: the top row is a command's where the word is that command's own, else it is told by the address byte. -/
theorem decoderFollowsTablePriorities : Obligations.DecoderFollowsTablePriorities := by
  intro p w hp
  have hne := Machine.cmdIdle_ne_cmdCalcCrc hp
  obtain ⟨hisIdle, hisCalc⟩ := isCommand_commandByte_of_consistent hp
  rw [frameWord_split w]
  generalize w.extractLsb' 8 8 = b, w.extractLsb' 0 8 = d
  by_cases hidle : b = 0x02 ∧ d = commandByte p.cmdIdle
  · obtain ⟨rfl, rfl⟩ := hidle
    refine ⟨commandRow 0 p.cmdIdle, by simp [frameRows_eq], ?_, commandRow_isTop hne (.inl rfl) ?_⟩
    · rw [decodeFrame_commandReg, decodeCommand_of_idle hisIdle]
      rfl
    · exact (commandRow_covers _ _ _ _).2 ⟨rfl, rfl⟩
  by_cases hcalc : b = 0x02 ∧ d = commandByte p.cmdCalcCrc
  · obtain ⟨rfl, rfl⟩ := hcalc
    refine ⟨commandRow 1 p.cmdCalcCrc, by simp [frameRows_eq], ?_, commandRow_isTop hne (.inr rfl) ?_⟩
    · rw [decodeFrame_commandReg, decodeCommand_of_calcCrc hisCalc hne.symm]
      rfl
    · exact (commandRow_covers _ _ _ _).2 ⟨rfl, rfl⟩
  · exact exists_top_of_no_command hidle hcalc

/-- Settles O4: each word is read by the decoder under the default parameters. -/
theorem decodeOfSpecWords : Obligations.DecodeOfSpecWords := by
  unfold Obligations.DecodeOfSpecWords
  decide

/-- Settles O6: the address byte is the direction bit, the six address bits and a 0 (`writeAddrByte_eq`, `readAddrByte_eq`). -/
theorem addressByteAssembly : Obligations.AddressByteAssembly := by
  intro a d
  rw [frameAddr_frameOfBytes, frameAddr_frameOfBytes, frameData_frameOfBytes]
  have hwrite : ∀ a : RegAddr, (writeAddrByte a.toNat).getLsbD 7 = false ∧ (writeAddrByte a.toNat).extractLsb' 1 6 = a
      ∧ (writeAddrByte a.toNat).getLsbD 0 = false := by decide
  have hread : ∀ a : RegAddr, (readAddrByte a.toNat).getLsbD 7 = true ∧ (readAddrByte a.toNat).extractLsb' 1 6 = a
      ∧ (readAddrByte a.toNat).getLsbD 0 = false := by decide
  obtain ⟨hw7, hwa, hw0⟩ := hwrite a
  obtain ⟨hr7, hra, hr0⟩ := hread a
  exact ⟨Machine.writeAddrByte_eq_shift a, Machine.readAddrByte_eq_shift a, hw7, hr7, hwa, hra, hw0, hr0, hwa, hra, rfl⟩

end Sys2Proof
end

section
/-!
Reserved frames (30_encoding.md R62, R63), and a POLL of the done flag against the engine's moment (R69, R119).
-/

namespace Sys2Proof.Machine

/-- R63: an exchange that is not two bytes has no row. -/
theorem decode_bus_of_length_ne (p : Config.Parameters) {bytes : List Byte} (h : bytes.length ≠ 2) :
    decode p (.bus bytes) = .error (.frameLength bytes.length) := by
  match bytes, h with
  | [], _ => rfl
  | [_], _ => rfl
  | [_, _], h => exact absurd rfl h
  | _ :: _ :: _ :: _, _ => rfl

/-- Settles O8: a set reserved bit decodes to RSVD.FRAME, another length decodes to nothing, and both are refused (D2). -/
theorem reservedFramesAreRefused : Obligations.ReservedFramesAreRefused := by
  refine ⟨fun b d s h => ?_, fun bytes s h => ?_, fun _ _ _ _ => rfl⟩
  · rw [runTransaction, decode, decodeFrame_of_reserved s.params h]
    rfl
  · rw [runTransaction, decode_bus_of_length_ne s.params h]
    rfl

/-! The poll of the done flag. -/

/-- R85: the state after a read of DivIrqReg: its value is answered and the block stays. -/
def State.readDivIrq (s : State) : State := s.answer s.divIrqValue

theorem memRead_divIrqReg (s : State) : memRead Config.addrDivIrqReg s = .next s.readDivIrq := rfl

theorem betweenFrames_of_not_due {s : State} (h : s.engineDue = false) : s.betweenFrames = s.hostTurn := by
  simp [State.betweenFrames, h]

/-- R119: a running engine that is not due still waits. -/
theorem engineWait_pos_of_not_due {s : State} (hbusy : s.crcBusy = true) (h : s.engineDue = false) : 0 < s.engineWait := by
  refine Nat.pos_of_ne_zero fun hwait => ?_
  rw [(engineDue_iff s).2 ⟨hbusy, hwait⟩] at h
  cases h

/-- R69, R85: a POLL of the done flag ends at a read that finds it set. -/
theorem poll_doneFlag_set {s : State} (h : s.crcIrq = true) (n : Nat) :
    poll Config.addrDivIrqReg s.params.divIrqCrcMask (n + 1) s
      = .next (s.readDivIrq.setHostResult (.polled true)) := by
  have hseen : s.divIrqValue &&& s.params.divIrqCrcMask ≠ 0 := by
    rw [Ne, and_crcMask_eq_zero, divIrqValue_bit, h]
    decide
  rw [poll, memRead_divIrqReg, andThen_next]
  exact if_pos hseen

/-- R69, R85: a POLL of the done flag goes on after a read that finds it clear, and between two reads the engine may move. -/
theorem poll_doneFlag_clear {s : State} (h : s.crcIrq = false) (n : Nat) :
    poll Config.addrDivIrqReg s.params.divIrqCrcMask (n + 1) s
      = poll Config.addrDivIrqReg s.params.divIrqCrcMask n
          (if n = 0 then s.readDivIrq else s.readDivIrq.betweenFrames) := by
  have hclear : s.divIrqValue &&& s.params.divIrqCrcMask = 0 := by
    rw [and_crcMask_eq_zero, divIrqValue_bit, h]
  rw [poll, memRead_divIrqReg, andThen_next]
  exact if_neg (not_not_intro hclear)

/-- Settles O43, by induction on the number of reads: each read but the last brings the completion one nearer. -/
theorem pollSeesTheFlagWithinTheBudget : Obligations.PollSeesTheFlagWithinTheBudget := by
  intro n
  induction n with
  | zero =>
    intro s hbusy hirq
    exact ⟨s.setHostResult (.polled false), rfl, fun h => by omega, fun _ => ⟨rfl, hirq, hbusy⟩⟩
  | succ n ih =>
    intro s hbusy hirq
    rw [poll_doneFlag_clear hirq]
    cases n with
    | zero => exact ⟨s.readDivIrq.setHostResult (.polled false), rfl, fun h => by omega, fun _ => ⟨rfl, hirq, hbusy⟩⟩
    | succ m =>
      rw [if_neg (Nat.succ_ne_zero m)]
      cases hdue : s.engineDue with
      | true =>
        have hwait : s.engineWait = 0 := ((engineDue_iff s).1 hdue).2
        rw [betweenFrames_of_due (s := s.readDivIrq) hdue]
        exact ⟨_, poll_doneFlag_set (s := s.readDivIrq.crcComplete.hostTurn) rfl m, fun _ => ⟨rfl, rfl, rfl⟩,
          fun h => by omega⟩
      | false =>
        have hpos := engineWait_pos_of_not_due hbusy hdue
        have hturn : s.readDivIrq.hostTurn.engineWait = s.engineWait - 1 := rfl
        rw [betweenFrames_of_not_due (s := s.readDivIrq) hdue]
        obtain ⟨t, ht, hseen, hmissed⟩ := ih s.readDivIrq.hostTurn hbusy hirq
        exact ⟨t, ht, fun h => hseen (by omega), fun h => hmissed (by omega)⟩

end Sys2Proof.Machine
end

section
/-!
The registers of the block, one frame at a time (40_bus_access.md R81 to R95): what each read returns, what each write does,
and that nothing else changes.
-/

namespace Sys2Proof.Machine

/-! What the accesses leave alone. -/

theorem SameHost.refl (s : State) : SameHost s s := ⟨rfl, rfl, rfl, rfl, rfl⟩

theorem SameHost.trans {s t u : State} (h : SameHost s t) (h' : SameHost t u) : SameHost s u := by
  simp_all [SameHost]

/-- R81: answering a frame touches neither the seven items nor the host. -/
theorem answer_keeps (s : State) (v : Byte) : SameBlock s (s.answer v) ∧ SameHost s (s.answer v) := ⟨.refl s, .refl s⟩

/-- R81: a write frame without an effect touches neither the seven items nor the host. -/
theorem answerWrite_keeps (s : State) : SameBlock s s.answerWrite ∧ SameHost s s.answerWrite := answer_keeps s s.unspecByte

/-- R88: a write of the FIFO touches nothing of the host. -/
theorem pushByte_sameHost (s : State) (d : Byte) : SameHost s (s.pushByte d) := by
  simp [SameHost]

/-- Settles O55: only FIFODataReg has a read rule that changes the block (`readRegister_next`). -/
theorem readsChangeNothing : Obligations.ReadsChangeNothing := by
  intro a x s t ha e
  rw [← readRegister_eq_exec] at e
  obtain ⟨hhost, -, -, hblock | ⟨hfifo, -⟩⟩ := readRegister_next e
  · exact ⟨hblock, hhost⟩
  · exact absurd hfifo ha

/-! CommandReg (R82, R83). -/

/-- R82: a write of CommandReg with the byte of CMD_IDLE. -/
theorem exec_wrCommandReg_of_idle {d : Byte} {s : State} (h : isCommand s.params s.params.cmdIdle d = true) :
    exec (.wrCommandReg d) s = .next s.issueIdle.answerWrite :=
  (execWrCommandReg_eq d s).trans (if_pos h)

/-- R82: a write of CommandReg with the byte of CMD_CALCCRC, which is not that of CMD_IDLE. -/
theorem exec_wrCommandReg_of_calcCrc {d : Byte} {s : State} (hidle : isCommand s.params s.params.cmdIdle d = false)
    (hcalc : isCommand s.params s.params.cmdCalcCrc d = true) :
    exec (.wrCommandReg d) s = .next s.issueCalcCrc.answerWrite := by
  simp [exec, execWrCommandReg_eq, hidle, hcalc]

/-- R82: a write of CommandReg with the byte of neither command. -/
theorem exec_wrCommandReg_of_none {d : Byte} {s : State} (hidle : isCommand s.params s.params.cmdIdle d = false)
    (hcalc : isCommand s.params s.params.cmdCalcCrc d = false) :
    exec (.wrCommandReg d) s = .refused (.reservedCommand d) := by
  simp [exec, execWrCommandReg_eq, hidle, hcalc]

/-- R82: a byte with a bit outside the command field is no command. -/
theorem isCommand_of_outside_field {p : Config.Parameters} (code : BitVec 4) {d : Byte} (h : d &&& ~~~p.cmdFieldMask ≠ 0) :
    isCommand p code d = false :=
  Bool.eq_false_iff.2 fun hd => h ((isCommand_iff p code d).1 hd).2

/-- Settles O15: whether the byte is a command is told by the field and the code (`isCommand_iff`). -/
theorem commandRegWritePerformsOrRefuses : Obligations.CommandRegWritePerformsOrRefuses := by
  intro d s
  refine ⟨fun hout => ?_, fun hin hd => ?_, fun hin hne hd => ?_, fun hidle hcalc => ?_⟩
  · exact exec_wrCommandReg_of_none (isCommand_of_outside_field _ hout) (isCommand_of_outside_field _ hout)
  · exact ⟨_, exec_wrCommandReg_of_idle ((isCommand_iff _ _ _).2 ⟨hd, hin⟩), rfl⟩
  · exact ⟨_, exec_wrCommandReg_of_calcCrc (isCommand_of_ne hne) ((isCommand_iff _ _ _).2 ⟨hd, hin⟩), rfl⟩
  · exact exec_wrCommandReg_of_none (isCommand_of_ne hidle) (isCommand_of_ne hcalc)

/-- Settles O16, by the bits of the value read (`commandValue_agreesOn`, `commandValue_field`). -/
theorem commandRegReadsTheCommandField : Obligations.CommandRegReadsTheCommandField :=
  fun _ s => ⟨s.answer s.commandValue, rfl, commandValue_agreesOn s, commandValue_field s, answer_keeps s _⟩

/-! DivIrqReg and ErrorReg (R84 to R87). -/

/-- Settles O17, by what a written byte makes of the done flag under each rule (`crcIrqAfterWrite_eq`). -/
theorem divIrqRegWriteRule : Obligations.DivIrqRegWriteRule := by
  intro d s
  have hirq : (s.writeDivIrq d).answerWrite.crcIrq = _ := crcIrqAfterWrite_eq s.params d s.crcIrq
  refine ⟨(s.writeDivIrq d).answerWrite, rfl, fun hrule => ?_, fun hrule => ?_, rfl, rfl, rfl, rfl, rfl, rfl, .refl s⟩
  all_goals rw [hirq, hrule]

/-- Settles O18, by the bit of the value read (`divIrqValue_bit`). -/
theorem divIrqRegReadsTheDoneFlag : Obligations.DivIrqRegReadsTheDoneFlag :=
  fun _ s => ⟨s.answer s.divIrqValue, rfl, divIrqValue_bit s, answer_keeps s _⟩

/-- Settles O19: each of the three writes is answered and nothing else (`answerWrite_keeps`). -/
theorem readOnlyRegistersIgnoreWrites : Obligations.ReadOnlyRegistersIgnoreWrites :=
  fun _ s => ⟨⟨_, rfl, answerWrite_keeps s⟩, ⟨_, rfl, answerWrite_keeps s⟩, ⟨_, rfl, answerWrite_keeps s⟩⟩

/-- Settles O20, by the bit of the value read (`errorValue_bit`). -/
theorem errorRegReadsTheOverflowFlag : Obligations.ErrorRegReadsTheOverflowFlag :=
  fun _ s => ⟨s.answer s.errorValue, rfl, errorValue_bit s, answer_keeps s _⟩

/-! The FIFO (R88 to R91). -/

/-- Settles O21, by what a written byte makes of the FIFO and of the overflow flag (`State.pushByte_fifo`,
`State.pushByte_bufOvfl`). -/
theorem fifoDataWriteAppends : Obligations.FifoDataWriteAppends := by
  intro d s
  refine ⟨_, exec_wrFifoDataReg d s, fun hfull => ?_, fun hroom => ?_, ?_⟩
  · simp [hfull]
  · simp [hroom]
  · simp [SameHost]

/-- R89: a read of a FIFO that holds a byte returns the oldest. -/
theorem headByte_of_cons {s : State} {b : Byte} {rest : List Byte} (h : s.fifo = b :: rest) : s.headByte = b := by
  simp [State.headByte, h]

/-- Settles O22: the reply is `headByte`, the FIFO left is the tail. -/
theorem fifoDataReadRemovesTheHead : Obligations.FifoDataReadRemovesTheHead := by
  intro x s
  refine ⟨s.poisonIfBusy.dropHead.answer s.headByte, rfl, fun b rest hfifo => ?_, fun hfifo => ?_, rfl, rfl, rfl, rfl, rfl,
    rfl, .refl s⟩
  · exact ⟨headByte_of_cons hfifo, congrArg List.tail hfifo⟩
  · exact congrArg List.tail hfifo

/-- R90: a write of FIFOLevelReg with the flush bit at 1. -/
theorem exec_wrFifoLevelReg_of_flush {d : Byte} {s : State} (h : d.getLsbD s.params.fifoFlushBit = true) :
    exec (.wrFifoLevelReg d) s = .next s.poisonIfBusy.flushFifo.answerWrite := by
  simp only [exec, execWrFifoLevelReg, and_flushMask_eq_zero, h, Bool.true_eq_false, if_false]

/-- R90: a write of FIFOLevelReg with the flush bit at 0. -/
theorem exec_wrFifoLevelReg_of_no_flush {d : Byte} {s : State} (h : d.getLsbD s.params.fifoFlushBit = false) :
    exec (.wrFifoLevelReg d) s = .next s.answerWrite :=
  if_pos ((and_flushMask_eq_zero s.params d).2 h)

/-- Settles O23, by the flush bit (`exec_wrFifoLevelReg_of_flush`, `exec_wrFifoLevelReg_of_no_flush`). -/
theorem fifoLevelWriteFlushes : Obligations.FifoLevelWriteFlushes := by
  intro d s
  cases hd : d.getLsbD s.params.fifoFlushBit with
  | true =>
    exact ⟨_, exec_wrFifoLevelReg_of_flush hd, fun _ => ⟨rfl, rfl, rfl⟩, (nomatch ·), rfl, rfl, rfl, rfl, .refl s⟩
  | false =>
    exact ⟨_, exec_wrFifoLevelReg_of_no_flush hd, (nomatch ·), fun _ => .refl s, rfl, rfl, rfl, rfl, .refl s⟩

/-- R91: the seven level bits of the default mask hold a count of up to 127. -/
theorem levelBits_toNat : ∀ n < 128, (BitVec.ofNat 8 n &&& 0x7F &&& ~~~Config.bitMask 7).toNat = n := by decide

/-- R91: under the default masks and capacity the value of FIFOLevelReg is the count. -/
theorem fifoLevelValue_toNat {s : State} (hmask : s.params.fifoLevelMask = 0x7F) (hflush : s.params.fifoFlushBit = 7)
    (hcapacity : s.params.fifoCapacity = 16) (hfifo : s.fifo.length ≤ s.params.fifoCapacity) :
    s.fifoLevelValue.toNat = s.fifo.length := by
  rw [State.fifoLevelValue, Config.Parameters.fifoFlushMask, hmask, hflush]
  exact levelBits_toNat _ (by omega)

/-- Settles O24, by the bits of the value read (`fifoLevelValue_bit`, `fifoLevelValue_toNat`). -/
theorem fifoLevelReadsTheCount : Obligations.FifoLevelReadsTheCount :=
  fun _ s => ⟨s.answer s.fifoLevelValue, rfl, rfl, fifoLevelValue_bit s, fifoLevelValue_toNat, answer_keeps s _⟩

/-! The result registers (R93, R95). -/

theorem resultHighValue_of_some {s : State} {r : BitVec 16} (h : s.crcResult = some r) :
    s.resultHighValue = r.extractLsb' 8 8 := by
  simp [State.resultHighValue, h]

theorem resultLowValue_of_some {s : State} {r : BitVec 16} (h : s.crcResult = some r) :
    s.resultLowValue = r.extractLsb' 0 8 := by
  simp [State.resultLowValue, h]

/-- Settles O26, by the value of a written result (`resultHighValue_of_some`). -/
theorem resultRegMReadsTheHighByte : Obligations.ResultRegMReadsTheHighByte :=
  fun _ s => ⟨s.answer s.resultHighValue, rfl, fun _ h => resultHighValue_of_some h, answer_keeps s _⟩

/-- Settles O27, by the value of a written result (`resultLowValue_of_some`). -/
theorem resultRegLReadsTheLowByte : Obligations.ResultRegLReadsTheLowByte :=
  fun _ s => ⟨s.answer s.resultLowValue, rfl, fun _ h => resultLowValue_of_some h, answer_keeps s _⟩

end Sys2Proof.Machine
end

section
/-!
The read-modify-write helpers (40_bus_access.md R98, R99): two frames, of which SETBITS and CLRBITS differ only in what they
make of the value read; at which registers they complete, and their effect on FIFOLevelReg and DivIrqReg.
-/

namespace Sys2Proof.Machine

/-! The two frames of a helper. -/

/-- R98, R99: a read of the register at `a`, then a write of `f` of the value read. -/
def readThenWrite (f : Byte → Byte) (a : RegAddr) (x : Byte) (s : State) : StepOutcome :=
  andThen (readRegister a x s) fun s1 => memWrite a (f s1.reply.byte1) s1.betweenFrames

theorem exec_setBits (a : RegAddr) (x mask : Byte) (s : State) :
    exec (.setBits a x mask) s = readThenWrite (· ||| mask) a x s := rfl

theorem exec_clrBits (a : RegAddr) (x mask : Byte) (s : State) :
    exec (.clrBits a x mask) s = readThenWrite (· &&& ~~~mask) a x s := rfl

/-- The part that follows matters only where the first part completes. -/
theorem andThen_congr {o : StepOutcome} {f g : State → StepOutcome} (h : ∀ s, o = .next s → f s = g s) :
    andThen o f = andThen o g := by
  cases o with
  | next s => exact h s rfl
  | fault r => rfl
  | refused r => rfl

theorem betweenFrames_params (s : State) : s.betweenFrames.params = s.params := by
  obtain ⟨⟨-, -, -, -, hparams⟩, -⟩ := betweenFrames_keeps s
  exact hparams

/-- R80, R98, R99: both frames are the operations they decode to, under the parameters the helper began with. -/
theorem readThenWrite_eq_exec (f : Byte → Byte) (a : RegAddr) (x : Byte) (s : State) :
    readThenWrite f a x s =
      andThen (exec (decodeRead a x) s) fun s1 => exec (decodeWrite s.params a (f s1.reply.byte1)) s1.betweenFrames := by
  rw [readThenWrite, readRegister_eq_exec]
  refine andThen_congr fun s1 e => ?_
  rw [← readRegister_eq_exec] at e
  rw [memWrite_eq_exec, betweenFrames_params, readRegister_params e]

/-- Settles O30 (`readThenWrite_eq_exec`). -/
theorem setBitsIsReadThenWrite : Obligations.SetBitsIsReadThenWrite :=
  fun a x mask s => readThenWrite_eq_exec (· ||| mask) a x s

/-- Settles O31 (`readThenWrite_eq_exec`). -/
theorem clrBitsIsReadThenWrite : Obligations.ClrBitsIsReadThenWrite :=
  fun a x mask s => readThenWrite_eq_exec (· &&& ~~~mask) a x s

/-! Where a helper completes (R98, R99: it stops where one of its frames stops). -/

/-- R80: a frame to an address the source names reaches a register of the block or, of another block, one of the eleven. -/
theorem named_cases {a : RegAddr} (h : addrClass a ≠ .unnamed) :
    a ∈ Config.inScopeAddrs ∨ isInScope a = false ∧ addrClass a = .outOfScope := by
  by_cases hin : a ∈ Config.inScopeAddrs
  · exact .inl hin
  · refine .inr ⟨isInScope_eq_false_of_not_mem hin, addrClass_of_outOfScope a ?_⟩
    by_contra hout
    exact h (addrClass_of_unnamed hin hout)

theorem mem_inScopeAddrs_iff (a : RegAddr) :
    a ∈ Config.inScopeAddrs ↔ a = Config.addrCommandReg ∨ a = Config.addrDivIrqReg ∨ a = Config.addrErrorReg
      ∨ a = Config.addrFifoDataReg ∨ a = Config.addrFifoLevelReg ∨ a = Config.addrCrcResultRegM
      ∨ a = Config.addrCrcResultRegL := by
  simp [Config.inScopeAddrs]

/-- R81, R97: a read frame completes at every register the source names. -/
theorem readRegister_completes {a : RegAddr} (h : addrClass a ≠ .unnamed) (x : Byte) (s : State) :
    ∃ t, readRegister a x s = .next t := by
  rcases named_cases h with hin | ⟨hscope, hclass⟩
  · rcases (mem_inScopeAddrs_iff a).1 hin with rfl | rfl | rfl | rfl | rfl | rfl | rfl
    all_goals exact ⟨_, rfl⟩
  · exact ⟨_, (readRegister_of_not_inScope hscope x s).trans (execRdOos_of_outOfScope hclass x s)⟩

/-- R90: a write of FIFOLevelReg completes, whatever its flush bit. -/
theorem exec_wrFifoLevelReg_completes (d : Byte) (s : State) : ∃ t, exec (.wrFifoLevelReg d) s = .next t := by
  obtain ⟨t, e, -⟩ := fifoLevelWriteFlushes d s
  exact ⟨t, e⟩

/-- R84 to R96: a write frame completes at every register the source names, but perhaps CommandReg. -/
theorem memWrite_completes {a : RegAddr} (h : addrClass a ≠ .unnamed) (hcmd : a ≠ Config.addrCommandReg) (d : Byte)
    (s : State) : ∃ t, memWrite a d s = .next t := by
  rcases named_cases h with hin | ⟨hscope, hclass⟩
  · rcases (mem_inScopeAddrs_iff a).1 hin with rfl | rfl | rfl | rfl | rfl | rfl | rfl
    · exact absurd rfl hcmd
    · exact ⟨_, rfl⟩
    · exact ⟨_, rfl⟩
    · exact ⟨_, rfl⟩
    · exact exec_wrFifoLevelReg_completes d s
    · exact ⟨_, rfl⟩
    · exact ⟨_, rfl⟩
  · exact ⟨_, (memWrite_of_not_inScope hscope d s).trans (execWrOos_of_outOfScope hclass d s)⟩

/-- R80: a write frame that completes leaves the host alone. -/
theorem memWrite_sameHost {a : RegAddr} {d : Byte} {s t : State} (e : memWrite a d s = .next t) : SameHost s t := by
  rcases memWrite_next e with ⟨-, rfl | rfl⟩ | ⟨-, rfl⟩ | ⟨-, rfl⟩ | ⟨-, -, rfl⟩ | rfl
  · exact .refl s
  · exact .refl s
  · exact .refl s
  · exact pushByte_sameHost s.poisonIfBusy d
  · exact .refl s
  · exact .refl s

/-- R98, R99: a helper that completes leaves the host alone. -/
theorem readThenWrite_sameHost {f : Byte → Byte} {a : RegAddr} {x : Byte} {s t : State}
    (e : readThenWrite f a x s = .next t) : SameHost s t := by
  obtain ⟨s1, hread, hwrite⟩ := (andThen_eq_next _ _ _).1 e
  obtain ⟨hhost, -⟩ := readRegister_next hread
  obtain ⟨hbetween, -⟩ := betweenFrames_keeps s1
  exact hhost.trans (hbetween.trans (memWrite_sameHost hwrite))

theorem exec_setBits_sameHost {a : RegAddr} {x mask : Byte} {s t : State} (e : exec (.setBits a x mask) s = .next t) :
    SameHost s t :=
  readThenWrite_sameHost (f := (· ||| mask)) e

theorem exec_clrBits_sameHost {a : RegAddr} {x mask : Byte} {s t : State} (e : exec (.clrBits a x mask) s = .next t) :
    SameHost s t :=
  readThenWrite_sameHost (f := (· &&& ~~~mask)) e

/-- R98, R99: a helper completes where both its frames do. -/
theorem readThenWrite_completes (f : Byte → Byte) {a : RegAddr} (h : addrClass a ≠ .unnamed)
    (hcmd : a ≠ Config.addrCommandReg) (x : Byte) (s : State) : ∃ t, readThenWrite f a x s = .next t ∧ SameHost s t := by
  obtain ⟨s1, hread⟩ := readRegister_completes h x s
  obtain ⟨t, hwrite⟩ := memWrite_completes h hcmd (f s1.reply.byte1) s1.betweenFrames
  have e : readThenWrite f a x s = .next t := (andThen_eq_next _ _ _).2 ⟨s1, hread, hwrite⟩
  exact ⟨t, e, readThenWrite_sameHost e⟩

/-- R82: a write of CommandReg completes exactly when its byte is a command. -/
theorem exec_wrCommandReg_completes_iff (d : Byte) (s : State) :
    (∃ t, exec (.wrCommandReg d) s = .next t)
      ↔ isCommand s.params s.params.cmdIdle d = true ∨ isCommand s.params s.params.cmdCalcCrc d = true := by
  cases hidle : isCommand s.params s.params.cmdIdle d with
  | true => simp [exec_wrCommandReg_of_idle hidle]
  | false =>
    cases hcalc : isCommand s.params s.params.cmdCalcCrc d with
    | true => simp [exec_wrCommandReg_of_calcCrc hidle hcalc]
    | false => simp [exec_wrCommandReg_of_none hidle hcalc]

/-- R64: under consistent parameters a command is told by its byte alone. -/
theorem isCommand_iff_of_consistent {p : Config.Parameters} (hp : p.consistent = true) (d : Byte) :
    (isCommand p p.cmdIdle d = true ↔ d = commandByte p.cmdIdle)
      ∧ (isCommand p p.cmdCalcCrc d = true ↔ d = commandByte p.cmdCalcCrc) := by
  obtain ⟨hidle, hcalc⟩ := isCommand_commandByte_of_consistent hp
  exact ⟨⟨fun h => ((isCommand_iff _ _ _).1 h).1, fun h => h ▸ hidle⟩,
    ⟨fun h => ((isCommand_iff _ _ _).1 h).1, fun h => h ▸ hcalc⟩⟩

/-- R83, R98, R99: a helper of CommandReg writes the command register with `f` of its value. -/
theorem readThenWrite_commandReg (f : Byte → Byte) (x : Byte) (s : State) :
    readThenWrite f Config.addrCommandReg x s
      = exec (.wrCommandReg (f s.commandValue)) (s.answer s.commandValue).betweenFrames := rfl

/-- R82, R98, R99: a helper of CommandReg completes exactly when the byte written back is a command. -/
theorem readThenWrite_commandReg_completes_iff (f : Byte → Byte) (x : Byte) {s : State} (hp : s.params.consistent = true) :
    (∃ t, readThenWrite f Config.addrCommandReg x s = .next t)
      ↔ f s.commandValue = commandByte s.params.cmdIdle ∨ f s.commandValue = commandByte s.params.cmdCalcCrc := by
  obtain ⟨hidle, hcalc⟩ := isCommand_iff_of_consistent hp (f s.commandValue)
  rw [readThenWrite_commandReg, exec_wrCommandReg_completes_iff, betweenFrames_params, State.answer_params, hidle, hcalc]

/-- R64: where CMD_IDLE is 0, the byte 0x00 is the idle command under every command field. -/
theorem isCommand_zero {p : Config.Parameters} (h : p.cmdIdle = 0) : isCommand p p.cmdIdle 0x00 = true := by
  rw [isCommand_iff, h]
  exact ⟨rfl, BitVec.zero_and⟩

/-- R99, R112: where CMD_IDLE is 0, CLRBITS of CommandReg with mask 0xFF writes 0x00, the idle command. -/
theorem exec_clrBits_commandReg_all {s : State} (x : Byte) (h : s.params.cmdIdle = 0) :
    exec (.clrBits Config.addrCommandReg x 0xFF) s
      = .next (s.answer s.commandValue).betweenFrames.issueIdle.answerWrite := by
  have hbyte : s.commandValue &&& ~~~0xFF = 0x00 := BitVec.and_zero
  rw [exec_clrBits, readThenWrite_commandReg, hbyte]
  exact exec_wrCommandReg_of_idle (isCommand_zero ((congrArg _ (betweenFrames_params _)).trans h))

/-- R19, R80: the seventeen registers the source names beside CommandReg. -/
theorem named_of_mem : ∀ a ∈ [0x05#6, 0x06#6, 0x09#6, 0x0A#6, 0x21#6, 0x22#6, 0x02#6, 0x04#6, 0x08#6, 0x0C#6, 0x0D#6, 0x14#6,
    0x26#6, 0x2A#6, 0x2B#6, 0x2C#6, 0x2D#6], addrClass a ≠ .unnamed ∧ a ≠ Config.addrCommandReg := by decide

/-- Settles O32: beside CommandReg both frames complete (`readThenWrite_completes`); there the second frame decides
(`readThenWrite_commandReg_completes_iff`). -/
theorem readModifyWriteCompletes : Obligations.ReadModifyWriteCompletes := by
  intro a x mask s
  refine ⟨fun ha => ?_, fun hp => ?_, fun hzero => ?_⟩
  · obtain ⟨hnamed, hcmd⟩ := named_of_mem a ha
    exact ⟨readThenWrite_completes (· ||| mask) hnamed hcmd x s, readThenWrite_completes (· &&& ~~~mask) hnamed hcmd x s⟩
  · exact ⟨readThenWrite_commandReg_completes_iff (· ||| mask) x hp,
      readThenWrite_commandReg_completes_iff (· &&& ~~~mask) x hp⟩
  · have e := exec_clrBits_commandReg_all x hzero
    exact ⟨_, e, congrArg Config.Parameters.cmdIdle (betweenFrames_params _), rfl, exec_clrBits_sameHost e⟩

/-! The flush and the clearing of the done flag by a helper. -/

/-- R90, R98: SETBITS of FIFOLevelReg with the flush bit in its mask writes that bit as 1, whatever it read. -/
theorem exec_setBits_fifoLevelReg {mask : Byte} {s : State} (x : Byte) (h : mask.getLsbD s.params.fifoFlushBit = true) :
    exec (.setBits Config.addrFifoLevelReg x mask) s
      = .next (s.answer s.fifoLevelValue).betweenFrames.poisonIfBusy.flushFifo.answerWrite := by
  refine exec_wrFifoLevelReg_of_flush (d := s.fifoLevelValue ||| mask) (s := (s.answer s.fifoLevelValue).betweenFrames) ?_
  rw [betweenFrames_params, State.answer_params, BitVec.getLsbD_or, h, Bool.or_true]

/-- Settles O33: the write back has the flush bit at 1 (`exec_setBits_fifoLevelReg`), and an idle engine does nothing between
the frames (`betweenFrames_idle`). -/
theorem setBitsFlushesTheFifo : Obligations.SetBitsFlushesTheFifo := by
  intro x mask s hmask
  have e := exec_setBits_fifoLevelReg x hmask
  refine ⟨_, e, rfl, rfl, exec_setBits_sameHost e, fun hbusy => ?_⟩
  rw [betweenFrames_idle (s.answer s.fifoLevelValue) hbusy]
  simp [hbusy]

/-- Settles O34: the write back has the CRC bit at 0, whatever was read (`readWriteDivIrq_crcIrq`), and an idle engine does
nothing between the frames (`betweenFrames_idle`). -/
theorem clrBitsClearsTheDoneFlag : Obligations.ClrBitsClearsTheDoneFlag := by
  intro x mask s hrule hmask
  refine ⟨_, exec_clrBits_divIrqReg x mask s, ?_, readWriteDivIrq_sameHost s _, fun hbusy => ?_⟩
  · rw [readWriteDivIrq_crcIrq hrule, BitVec.getLsbD_and, BitVec.getLsbD_not, hmask, Bool.not_true, Bool.and_false,
      Bool.and_false, Bool.and_false]
  · rw [State.readWriteDivIrq, betweenFrames_idle (s.answer s.divIrqValue) hbusy]
    simp [hbusy]

end Sys2Proof.Machine
end

section
/-!
The engine's own step and the two commands (41_crc_engine.md R112 to R115), and the checksum function (R111).
-/

namespace Sys2Proof.Machine

/-! The engine's step (R114). -/

/-- R114, R119: a step of a due engine is its completion. -/
theorem step_of_due {s : State} (h : s.engineDue = true) : step s = .next s.crcComplete :=
  if_pos h

/-- R114, D12: an unpoisoned completion drains the FIFO under `CRC_SELF_TERMINATES`. -/
theorem completionFifo_of_drained {s : State} (hpoison : s.crcPoison = false)
    (hterm : s.params.crcSelfTerminates = true) : s.completionFifo = [] := by
  simp [State.completionFifo, hpoison, hterm]

/-- R114, D13: a poisoned completion leaves a drawn FIFO. -/
theorem completionFifo_of_poisoned {s : State} (h : s.crcPoison = true) :
    s.completionFifo = unspecFifo s.params.fifoCapacity s.draws := by
  simp [State.completionFifo, h]

/-- Settles O12: the step is `State.crcComplete` (`step_of_due`); what it leaves depends on the poison. -/
theorem engineStepCompletesTheComputation : Obligations.EngineStepCompletesTheComputation := by
  intro s hbusy hwait
  have hstep := step_of_due ((engineDue_iff s).2 ⟨hbusy, hwait⟩)
  refine ⟨s.crcComplete, hstep, rfl, rfl, rfl, rfl, .refl s, rfl, fun hpoison => ?_, completionFifo_of_drained,
    fun hterm => if_pos hterm, fun hpoison => ⟨rfl, ?_⟩⟩
  · exact congrArg some (completionResult_of_not_poisoned hpoison)
  · rw [State.crcComplete_fifo, completionFifo_of_poisoned hpoison]
    exact unspecFifo_length_le _ _

/-! The two commands (R112, R113) and the poison (R115). -/

/-- Settles O13: the state after is `State.issueIdle`, whose FIFO is a draw when it cancelled the engine (D26). -/
theorem idleCommandCancelsTheEngine : Obligations.IdleCommandCancelsTheEngine := by
  intro s
  refine ⟨s.issueIdle.answerWrite, rfl, rfl, rfl, rfl, rfl, rfl, rfl, .refl s, fun hidle => ?_, fun hbusy => ?_⟩
  · simp [hidle]
  · simpa [hbusy] using unspecFifo_length_le _ _

/-- Settles O14: the state after is `State.issueCalcCrc`. -/
theorem calcCrcCommandStartsTheEngine : Obligations.CalcCrcCommandStartsTheEngine :=
  fun s => ⟨s.issueCalcCrc.answerWrite, rfl, rfl, rfl, rfl, rfl, rfl, rfl, rfl, .refl s⟩

/-- Settles O54: of the effects one frame can have (`exec_frameEffect`) only the three accesses to the FIFO poison, and each
of these accesses does (R88 to R90). -/
theorem onlyFifoAccessesPoison : Obligations.OnlyFifoAccessesPoison := by
  intro i s t hi e hclean
  constructor
  · intro hpoison
    cases exec_frameEffect hi e with
    | unchanged _ h | idle _ _ h | calcCrc _ _ h | divIrq _ h =>
      obtain ⟨-, -, -, -, -, -, hp⟩ := h
      simp [hp, hclean] at hpoison
    | push d h =>
      obtain ⟨-, -, -, -, -, -, hp⟩ := h
      exact ⟨by simpa [hp, hclean] using hpoison, .inl ⟨d, rfl⟩⟩
    | pop x h =>
      obtain ⟨-, -, -, -, -, -, hp⟩ := h
      exact ⟨by simpa [hp, hclean] using hpoison, .inr (.inl ⟨x, rfl⟩)⟩
    | flush d hd h =>
      obtain ⟨-, -, -, -, -, -, hp⟩ := h
      exact ⟨by simpa [hp, hclean] using hpoison, .inr (.inr ⟨d, rfl, hd⟩)⟩
  · rintro ⟨hbusy, ⟨d, rfl⟩ | ⟨x, rfl⟩ | ⟨d, rfl, hd⟩⟩
    · rw [exec_wrFifoDataReg] at e
      cases e
      simp [hbusy]
    · cases e
      simp [hbusy]
    · rw [exec_wrFifoLevelReg_of_flush hd] at e
      cases e
      simp [hbusy]

/-! The checksum function (R111). -/

/-- R7: a 16-bit word is its high byte, moved up, and its low byte. -/
theorem word_eq_bytes (c : BitVec 16) :
    c = ((c.extractLsb' 8 8).setWidth 16 <<< 8) ^^^ (c.extractLsb' 0 8).setWidth 16 := by
  apply BitVec.eq_of_getLsbD_eq
  intro k hk
  by_cases hlow : k < 8
  · simp [hk, hlow]
  · have hhigh : c.getLsbD (8 + (k - 8)) = c.getLsbD k := by rw [Nat.add_sub_cancel' (Nat.le_of_not_lt hlow)]
    have hbyte : k - 8 < 8 := by omega
    simp [hk, hlow, hhigh, hbyte]

/-- R111: eight shifts move a high byte down unchanged, since the bits shifted out are 0. -/
theorem crcAShifts_high : ∀ h : Byte, crcAShifts 8 (h.setWidth 16 <<< 8) = h.setWidth 16 := by decide

/-- R111: the table entry of a byte, as the byte-at-a-time form computes it, is eight shifts of the byte. -/
theorem crcAShifts_low : ∀ t0 : Byte, crcAShifts 8 (t0.setWidth 16) =
    ((t0 ^^^ (t0 <<< 4)).setWidth 16 <<< 8) ^^^ ((t0 ^^^ (t0 <<< 4)).setWidth 16 <<< 3)
      ^^^ ((t0 ^^^ (t0 <<< 4)).setWidth 16 >>> 4) := by decide

/-- R111: one byte acts on the low byte of the checksum, and the high byte moves down. -/
theorem crcAByte_eq (c : BitVec 16) (b : Byte) :
    crcAByte c b = (c.extractLsb' 8 8).setWidth 16 ^^^ crcAShifts 8 ((b ^^^ c.extractLsb' 0 8).setWidth 16) := by
  have hsplit : c ^^^ b.setWidth 16
      = ((c.extractLsb' 8 8).setWidth 16 <<< 8) ^^^ (b ^^^ c.extractLsb' 0 8).setWidth 16 := by
    conv_lhs => rw [word_eq_bytes c]
    rw [BitVec.xor_assoc, BitVec.setWidth_xor, BitVec.xor_comm (b.setWidth 16)]
  rw [crcAByte, hsplit, crcAShifts_xor, crcAShifts_high]

/-- R111: the two forms agree on every byte. -/
theorem crcATableByte_eq (c : BitVec 16) (b : Byte) : crcATableByte c b = crcAByte c b := by
  have hhigh : c >>> 8 = (c.extractLsb' 8 8).setWidth 16 := by
    apply BitVec.eq_of_getLsbD_eq
    intro k hk
    simpa [hk] using fun h => (Nat.add_lt_add_iff_left (m := 8)).1 (BitVec.lt_of_getLsbD h)
  rw [crcAByte_eq, crcAShifts_low, crcATableByte, hhigh]
  simp only [BitVec.xor_assoc]

/-- Settles O40: the two forms agree byte by byte (`crcATableByte_eq`). -/
theorem crcByteFormEqualsBitwiseForm : Obligations.CrcByteFormEqualsBitwiseForm := by
  intro s
  have hbyte : crcATableByte = crcAByte := funext fun c => funext (crcATableByte_eq c)
  rw [crcATable, hbyte, crcA]

theorem crcAShifts_zero : crcAShifts 8 0#16 = 0#16 := by decide

/-- R111: the low byte of the checksum, taken as data, cancels itself. -/
theorem crcAByte_own_low (c : BitVec 16) : crcAByte c (c.extractLsb' 0 8) = (c.extractLsb' 8 8).setWidth 16 := by
  rw [crcAByte_eq, BitVec.xor_self, BitVec.setWidth_zero, crcAShifts_zero, BitVec.xor_zero]

/-- R111: a byte that the checksum equals cancels it. -/
theorem crcAByte_self (h : Byte) : crcAByte (h.setWidth 16) h = 0 := by
  rw [crcAByte, BitVec.xor_self, crcAShifts_zero]
  rfl

/-- Settles O41: the two bytes of the checksum cancel it one after the other (`crcAByte_own_low`, `crcAByte_self`). -/
theorem crcResidueIsZero : Obligations.CrcResidueIsZero := by
  intro s
  simp only [crcA_append, List.foldl_cons, List.foldl_nil, crcAByte_own_low, crcAByte_self]

end Sys2Proof.Machine
end

section
/-!
Progress of a running engine (41_crc_engine.md R119): what a host operation that is no command, no reset and not refused leaves
of it, and that finitely many steps bring its completion.
-/

namespace Sys2Proof.Machine

/-! What the host does to a running engine. -/

/-- R114, R119: in `t` the computation that ran in `s` has come to its end. `calm` says that nobody disturbed it since; then the
flag stands, and so does the checksum of the FIFO unless the engine was poisoned in `s`. -/
structure Completed (calm : Prop) (s t : State) : Prop where
  idle : t.crcBusy = false
  written : t.crcResult.isSome = true
  flag : calm → t.crcIrq = true
  value : calm → s.crcPoison = false → t.crcResult = some (crcOf s.params.crcFn s.fifo)

/-- R119: in `t` the computation that ran in `s` goes on and is no farther from its end. `calm` says that nobody disturbed it
since. -/
structure StillRuns (calm : Prop) (s t : State) : Prop where
  params : t.params = s.params
  busy : t.crcBusy = true
  wait : t.engineWait ≤ s.engineWait
  input : calm → t.fifo = s.fifo ∧ t.crcPoison = s.crcPoison

/-- R119: the computation that ran in `s` was neither cancelled nor started again on the way to `t`. -/
def GoesOn (calm : Prop) (s t : State) : Prop := StillRuns calm s t ∨ Completed calm s t

variable {calm : Prop} {s t u : State}

theorem StillRuns.refl (hbusy : s.crcBusy = true) : StillRuns calm s s := ⟨rfl, hbusy, Nat.le_refl _, fun _ => ⟨rfl, rfl⟩⟩

theorem StillRuns.completed (h : StillRuns calm s t) (h' : Completed calm t u) : Completed calm s u where
  idle := h'.idle
  written := h'.written
  flag := h'.flag
  value hc hpoison := by
    obtain ⟨hfifo, hp⟩ := h.input hc
    rw [← hfifo, ← h.params]
    exact h'.value hc (hp.trans hpoison)

/-- R114: the completion itself. -/
theorem completed_crcComplete (calm : Prop) (s : State) : Completed calm s s.crcComplete where
  idle := rfl
  written := rfl
  flag _ := rfl
  value _ hpoison := congrArg some (completionResult_of_not_poisoned hpoison)

/-- What keeps the engine, its result and the parameters lets the computation go on; undisturbed if it leaves the FIFO, the
poison and the flag of a completion alone. -/
theorem GoesOn.of_kept (h : GoesOn calm s t) (hparams : u.params = t.params) (hbusy : u.crcBusy = t.crcBusy)
    (hresult : u.crcResult = t.crcResult) (hwait : u.engineWait ≤ t.engineWait)
    (hcalm : calm → u.fifo = t.fifo ∧ u.crcPoison = t.crcPoison ∧ (t.crcBusy = false → u.crcIrq = t.crcIrq)) :
    GoesOn calm s u := by
  rcases h with ⟨hp, hb, hw, hin⟩ | ⟨hidle, hwritten, hflag, hvalue⟩
  · refine .inl ⟨hparams.trans hp, hbusy.trans hb, Nat.le_trans hwait hw, fun hc => ?_⟩
    obtain ⟨hfifo, hpoison, -⟩ := hcalm hc
    obtain ⟨hfifo', hpoison'⟩ := hin hc
    exact ⟨hfifo.trans hfifo', hpoison.trans hpoison'⟩
  · refine .inr ⟨hbusy.trans hidle, hresult ▸ hwritten, fun hc => ?_, fun hc hp => hresult.trans (hvalue hc hp)⟩
    obtain ⟨-, -, hirq⟩ := hcalm hc
    exact (hirq hidle).trans (hflag hc)

/-- What leaves the whole block alone lets the computation go on undisturbed. -/
theorem GoesOn.of_sameBlock (h : GoesOn calm s t) (hb : SameBlock t u) (hparams : u.params = t.params)
    (hwait : u.engineWait ≤ t.engineWait) : GoesOn calm s u := by
  obtain ⟨-, hirq, -, hfifo, hresult, hbusy, hpoison⟩ := hb
  exact h.of_kept hparams hbusy hresult hwait fun _ => ⟨hfifo, hpoison, fun _ => hirq⟩

theorem GoesOn.answer (h : GoesOn calm s t) (v : Byte) : GoesOn calm s (t.answer v) :=
  h.of_sameBlock (.refl t) rfl (Nat.le_refl _)

theorem GoesOn.setHostResult (h : GoesOn calm s t) (r : HostResult) : GoesOn calm s (t.setHostResult r) :=
  h.of_sameBlock (.refl t) rfl (Nat.le_refl _)

theorem GoesOn.advance (h : GoesOn calm s t) : GoesOn calm s t.advance :=
  h.of_sameBlock (.refl t) rfl (Nat.le_refl _)

theorem GoesOn.hostTurn (h : GoesOn calm s t) : GoesOn calm s t.hostTurn :=
  h.of_sameBlock (.refl t) rfl (Nat.sub_le _ _)

/-- R114: a completion that is due ends the computation that goes on. -/
theorem GoesOn.crcComplete (h : GoesOn calm s t) (hdue : t.engineDue = true) : GoesOn calm s t.crcComplete := by
  rcases h with hrun | hdone
  · exact .inr (hrun.completed (completed_crcComplete calm t))
  · rw [State.engineDue, hdone.idle] at hdue
    cases hdue

/-- R41, R47: between two frames the computation goes on or completes. -/
theorem GoesOn.betweenFrames (h : GoesOn calm s t) : GoesOn calm s t.betweenFrames := by
  rcases betweenFrames_cases t with ⟨hdue, e⟩ | ⟨-, e⟩ <;> rw [e]
  · exact (h.crcComplete hdue).hostTurn
  · exact h.hostTurn

/-- R81, R115: a read frame lets the computation go on, and only a read of FIFODataReg disturbs it. -/
theorem GoesOn.read {a : RegAddr} {x : Byte} (h : GoesOn calm s t) (ha : calm → a ≠ Config.addrFifoDataReg)
    (e : readRegister a x t = .next u) : GoesOn calm s u := by
  obtain ⟨⟨-, -, -, -, hparams⟩, hwait, -, hb | ⟨hfifo, hb⟩⟩ := readRegister_next e
  · exact h.of_sameBlock hb hparams (Nat.le_of_eq hwait)
  · obtain ⟨-, -, -, -, hresult, hbusy, -⟩ := hb
    exact h.of_kept hparams hbusy hresult (Nat.le_of_eq hwait) fun hc => absurd hfifo (ha hc)

/-- R115, R170: a write frame beside CommandReg lets the computation go on; only a write of FIFODataReg, a flush, and a write of
DivIrqReg after the completion disturb it. -/
theorem GoesOn.write {a : RegAddr} {d : Byte} (h : GoesOn calm s t) (hcmd : a ≠ Config.addrCommandReg)
    (hcalm : calm → a ≠ Config.addrFifoDataReg
      ∧ (a = Config.addrFifoLevelReg → d.getLsbD t.params.fifoFlushBit = false)
      ∧ (a = Config.addrDivIrqReg → t.crcBusy = true))
    (e : memWrite a d t = .next u) : GoesOn calm s u := by
  rcases memWrite_next e with ⟨ha, -⟩ | ⟨ha, rfl⟩ | ⟨ha, rfl⟩ | ⟨ha, hd, rfl⟩ | rfl
  · exact absurd ha hcmd
  · refine h.of_kept rfl rfl rfl (Nat.le_refl _) fun hc => ⟨rfl, rfl, fun hidle => ?_⟩
    obtain ⟨-, -, hbusy⟩ := hcalm hc
    rw [hbusy ha] at hidle
    cases hidle
  · refine h.of_kept (by simp) (by simp) (by simp) (by simp) fun hc => ?_
    obtain ⟨hdata, -⟩ := hcalm hc
    exact absurd ha hdata
  · refine h.of_kept rfl rfl rfl (Nat.le_refl _) fun hc => ?_
    obtain ⟨-, hflush, -⟩ := hcalm hc
    rw [hflush ha] at hd
    cases hd
  · exact h.answer _

/-! The helpers (R98, R99). -/

theorem helperEffect_ne_ends {a : RegAddr} (h : helperEffect a ≠ .ends) :
    addrClass a ≠ .unnamed ∧ a ≠ Config.addrCommandReg := by
  rw [← not_or]
  exact fun ha => h (if_pos ha)

theorem helperEffect_eq_ends {a : RegAddr} (h : helperEffect a = .ends) :
    addrClass a = .unnamed ∨ a = Config.addrCommandReg := by
  unfold helperEffect at h
  split_ifs at h with ha
  exact ha

theorem helperEffect_eq_leaves {a : RegAddr} (h : helperEffect a = .leaves) :
    a ≠ Config.addrFifoDataReg ∧ a ≠ Config.addrFifoLevelReg ∧ a ≠ Config.addrDivIrqReg := by
  unfold helperEffect at h
  split_ifs at h with hends hdisturbs
  simpa only [not_or] using hdisturbs

theorem GoesOn.readThenWrite {f : Byte → Byte} {a : RegAddr} {x : Byte} (h : GoesOn calm s t)
    (hends : helperEffect a ≠ .ends) (hcalm : calm → helperEffect a = .leaves)
    (e : readThenWrite f a x t = .next u) : GoesOn calm s u := by
  obtain ⟨s1, hread, hwrite⟩ := (andThen_eq_next _ _ _).1 e
  have h1 := (h.read (fun hc => (helperEffect_eq_leaves (hcalm hc)).1) hread).betweenFrames
  refine h1.write (helperEffect_ne_ends hends).2 (fun hc => ?_) hwrite
  obtain ⟨hdata, hlevel, hirq⟩ := helperEffect_eq_leaves (hcalm hc)
  exact ⟨hdata, (absurd · hlevel), (absurd · hirq)⟩

/-- R20: an address the source does not name is none of the block's. -/
theorem isInScope_of_unnamed {a : RegAddr} (h : addrClass a = .unnamed) : isInScope a = false := by
  unfold addrClass at h
  split_ifs at h with hin
  exact Bool.eq_false_iff.2 hin

/-- R98, R99: a helper that may end the computation completes at CommandReg only; at an unnamed address its read frame is
refused. -/
theorem readThenWrite_ends {f : Byte → Byte} {a : RegAddr} {x : Byte} (h : helperEffect a = .ends)
    (e : readThenWrite f a x s = .next t) : a = Config.addrCommandReg := by
  refine (helperEffect_eq_ends h).resolve_left fun hunnamed => ?_
  rw [readThenWrite, readRegister_of_not_inScope (isInScope_of_unnamed hunnamed), execRdOos_of_unnamed hunnamed] at e
  cases e

/-- R98, R99: a helper that does not end the computation completes. -/
theorem readThenWrite_completes_of_effect (f : Byte → Byte) {a : RegAddr} (h : helperEffect a ≠ .ends) (x : Byte)
    (s : State) : ∃ t, readThenWrite f a x s = .next t := by
  obtain ⟨hnamed, hcmd⟩ := helperEffect_ne_ends h
  obtain ⟨t, e, -⟩ := readThenWrite_completes f hnamed hcmd x s
  exact ⟨t, e⟩

/-! The operations of the opcode table (R119). -/

theorem wrOosEffect_eq_ends_iff (p : Config.Parameters) (a : RegAddr) (d : Byte) :
    instrEffect p (.wrOos a d) = .ends ↔ addrClass a ≠ .outOfScope := by
  simp [instrEffect]

theorem rdOosEffect_eq_ends_iff (p : Config.Parameters) (a : RegAddr) (x : Byte) :
    instrEffect p (.rdOos a x) = .ends ↔ addrClass a ≠ .outOfScope := by
  simp [instrEffect]

theorem wrFifoLevelEffect_ne_ends (p : Config.Parameters) (d : Byte) : instrEffect p (.wrFifoLevelReg d) ≠ .ends := by
  simp only [instrEffect]
  split_ifs <;> decide

theorem wrFifoLevelEffect_eq_leaves {p : Config.Parameters} {d : Byte}
    (h : instrEffect p (.wrFifoLevelReg d) = .leaves) : d.getLsbD p.fifoFlushBit = false := by
  simp only [instrEffect] at h
  split_ifs at h with hd
  exact Bool.eq_false_iff.2 hd

/-- R119: an operation that does not end the computation completes. -/
theorem exec_completes {i : Instr} {p : Config.Parameters} (h : instrEffect p i ≠ .ends) (s : State) :
    ∃ t, exec i s = .next t := by
  cases i with
  | cmdIdle | cmdCalcCrc | wrCommandReg d | rsvdFrame rd a d => exact absurd rfl h
  | wrFifoLevelReg d => exact exec_wrFifoLevelReg_completes d s
  | wrOos a d =>
    have hclass := not_not.1 (mt (wrOosEffect_eq_ends_iff p a d).2 h)
    exact ⟨_, execWrOos_of_outOfScope hclass d s⟩
  | rdOos a x =>
    have hclass := not_not.1 (mt (rdOosEffect_eq_ends_iff p a x).2 h)
    exact ⟨_, execRdOos_of_outOfScope hclass x s⟩
  | setBits a x m => exact readThenWrite_completes_of_effect (· ||| m) h x s
  | clrBits a x m => exact readThenWrite_completes_of_effect (· &&& ~~~m) h x s
  | _ => exact ⟨_, rfl⟩

/-- R119: an operation that does not end the computation lets it go on, undisturbed if the operation leaves the engine alone. -/
theorem exec_goesOn {i : Instr} (hbusy : s.crcBusy = true) (hends : instrEffect s.params i ≠ .ends)
    (hcalm : calm → instrEffect s.params i = .leaves) (e : exec i s = .next t) : GoesOn calm s t := by
  have h : GoesOn calm s s := .inl (.refl hbusy)
  cases i with
  | cmdIdle | cmdCalcCrc | wrCommandReg d | rsvdFrame rd a d => exact absurd rfl hends
  | wrDivIrqReg d =>
    exact h.write (a := Config.addrDivIrqReg) (by decide) (fun _ => ⟨by decide, (absurd · (by decide)), fun _ => hbusy⟩) e
  | wrFifoDataReg d => exact h.write (a := Config.addrFifoDataReg) (by decide) (fun hc => nomatch hcalm hc) e
  | rdFifoDataReg x => exact h.read (a := Config.addrFifoDataReg) (x := x) (fun hc => nomatch hcalm hc) e
  | wrFifoLevelReg d =>
    exact h.write (a := Config.addrFifoLevelReg) (by decide)
      (fun hc => ⟨by decide, fun _ => wrFifoLevelEffect_eq_leaves (hcalm hc), fun _ => hbusy⟩) e
  | wrOos a d =>
    obtain ⟨-, rfl⟩ := execWrOos_next (a := a) (d := d) e
    exact h.answer _
  | rdOos a x =>
    obtain ⟨-, rfl⟩ := execRdOos_next (a := a) (x := x) e
    exact h.answer _
  | setBits a x m => exact h.readThenWrite (f := (· ||| m)) hends hcalm e
  | clrBits a x m => exact h.readThenWrite (f := (· &&& ~~~m)) hends hcalm e
  | accEnc b0 b1 b2 b3 x | accDec b0 b1 b2 b3 =>
    cases e
    exact h.of_sameBlock (.refl s) rfl (Nat.le_refl _)
  | _ =>
    cases e
    exact h.answer _

/-- R112, R113: an operation that may start the computation again. -/
def MayRestart (p : Config.Parameters) (i : Instr) : Prop :=
  i = .cmdCalcCrc ∨ i = .wrCommandReg (commandByte p.cmdCalcCrc) ∨ (∃ x m, i = .setBits 0x01 x m)
    ∨ ∃ x m, i = .clrBits 0x01 x m

/-- R82: a write of CommandReg that completes cancels the computation or starts it again. -/
theorem execWrCommandReg_cancels {d : Byte} (e : execWrCommandReg d s = .next t) :
    t.crcBusy = false ∨ d = commandByte s.params.cmdCalcCrc := by
  rw [execWrCommandReg_eq] at e
  split_ifs at e with hidle hcalc
  · cases e
    exact .inl rfl
  · exact .inr ((isCommand_iff _ _ _).1 hcalc).1

/-- R112, R113: an operation that ends the computation and completes cancels it or may start it again. -/
theorem exec_ends {i : Instr} (h : instrEffect s.params i = .ends) (e : exec i s = .next t) :
    t.crcBusy = false ∨ MayRestart s.params i := by
  cases i with
  | cmdIdle =>
    cases e
    exact .inl rfl
  | cmdCalcCrc => exact .inr (.inl rfl)
  | wrCommandReg d => exact (execWrCommandReg_cancels e).imp_right fun hd => .inr (.inl (congrArg _ hd))
  | rsvdFrame rd a d => cases e
  | wrFifoLevelReg d => exact absurd h (wrFifoLevelEffect_ne_ends _ d)
  | wrOos a d =>
    obtain ⟨hclass, -⟩ := execWrOos_next (a := a) (d := d) e
    exact absurd hclass ((wrOosEffect_eq_ends_iff _ a d).1 h)
  | rdOos a x =>
    obtain ⟨hclass, -⟩ := execRdOos_next (a := a) (x := x) e
    exact absurd hclass ((rdOosEffect_eq_ends_iff _ a x).1 h)
  | setBits a x m =>
    obtain rfl := readThenWrite_ends (f := (· ||| m)) h e
    exact .inr (.inr (.inr (.inl ⟨x, m, rfl⟩)))
  | clrBits a x m =>
    obtain rfl := readThenWrite_ends (f := (· &&& ~~~m)) h e
    exact .inr (.inr (.inr (.inr ⟨x, m, rfl⟩)))
  | _ => cases h

/-- Settles O45: an operation that does not end the computation lets it go on (`exec_goesOn`) in the time its turn has left
(`State.hostTurn`), and one that ends it is among those named (`exec_ends`). -/
theorem hostOperationsDoNotHoldTheEngineUp : Obligations.HostOperationsDoNotHoldTheEngineUp := by
  intro i s t hbusy hdue e
  have hpos := engineWait_pos_of_not_due hbusy hdue
  by_cases hends : instrEffect s.params i = .ends
  · exact (exec_ends (s := s.hostTurn) hends e).imp_right .inr
  · rcases exec_goesOn (calm := False) (s := s.hostTurn) hbusy hends False.elim e with hrun | hdone
    · exact .inr (.inl (Nat.lt_of_le_of_lt hrun.wait (Nat.sub_lt hpos Nat.one_pos)))
    · exact .inl hdone.idle

/-! The host's program (R25, R69). -/

/-- R69: a POLL of a named register lets the computation go on, and only one of FIFODataReg disturbs it. -/
theorem GoesOn.poll {a : RegAddr} (mask : Byte) (ha : addrClass a ≠ .unnamed) (hcalm : calm → a ≠ Config.addrFifoDataReg)
    (n : Nat) (h : GoesOn calm s t) : ∃ u, poll a mask n t = .next u ∧ GoesOn calm s u := by
  induction n generalizing t with
  | zero => exact ⟨_, rfl, h.setHostResult _⟩
  | succ n ih =>
    obtain ⟨s1, hread⟩ := readRegister_completes ha 0x00 t
    have h1 := h.read hcalm hread
    rw [Machine.poll, memRead, hread, andThen_next]
    split
    · exact ⟨_, rfl, h1.setHostResult _⟩
    · refine ih ?_
      split
      · exact h1
      · exact h1.betweenFrames

/-- R119: an operation of a host program that does not end the computation completes and lets it go on. -/
theorem runHostOp_goesOn {op : HostOp} (hbusy : s.crcBusy = true) (hends : op.engineEffect s.params ≠ .ends)
    (hcalm : calm → op.engineEffect s.params = .leaves) : ∃ t, runHostOp op s = .next t ∧ GoesOn calm s t := by
  cases op with
  | transact tr =>
    simp only [HostOp.engineEffect] at hends hcalm
    rw [runHostOp]
    cases hdecode : decode s.params tr with
    | ok i =>
      rw [hdecode] at hends hcalm
      obtain ⟨t, e⟩ := exec_completes hends s
      exact ⟨t, (runTransaction_of_decode hdecode).trans e, exec_goesOn hbusy hends hcalm e⟩
    | error err =>
      rw [hdecode] at hends
      exact absurd rfl hends
  | poll a mask n =>
    simp only [HostOp.engineEffect] at hends hcalm
    split_ifs at hends hcalm with hunnamed hdata
    · exact absurd rfl hends
    · exact GoesOn.poll mask hunnamed (fun hc => nomatch hcalm hc) n (.inl (.refl hbusy))
    · exact GoesOn.poll mask hunnamed (fun _ => hdata) n (.inl (.refl hbusy))
  | crc16 data | reset | foreign tr => exact absurd rfl hends

/-- R25: the operations the host has still to present. -/
def State.remaining (s : State) : List HostOp := s.program.drop s.hostIndex

theorem mem_remaining_of_fetch {op : HostOp} (h : s.fetch = some op) : op ∈ s.remaining := by
  rw [State.remaining, List.mem_iff_getElem?]
  exact ⟨0, by rwa [List.getElem?_drop]⟩

/-- R25: a step presents no operation that was not to come. -/
theorem remaining_subset_of_step (e : step s = .next t) : t.remaining ⊆ s.remaining := by
  unfold State.remaining
  obtain ⟨hprogram, hstay | ⟨-, hmove⟩⟩ := step_hostIndex e
  · rw [hprogram, hstay]
    exact List.Subset.refl _
  · rw [hprogram, hmove]
    exact List.drop_subset_drop_left _ (Nat.le_succ _)

/-- R119: a step of a running engine that is not due completes and lets the computation go on. -/
theorem step_goesOn (hbusy : s.crcBusy = true) (hdue : s.engineDue = false)
    (hends : ∀ op ∈ s.remaining, op.engineEffect s.params ≠ .ends)
    (hcalm : calm → ∀ op ∈ s.remaining, op.engineEffect s.params = .leaves) :
    ∃ t, step s = .next t ∧ GoesOn calm s.hostTurn t := by
  cases hfetch : s.fetch with
  | none => exact ⟨_, step_of_fetch_none hdue hfetch, .inl (.refl hbusy)⟩
  | some op =>
    have hmem := mem_remaining_of_fetch hfetch
    obtain ⟨t, e, h⟩ := runHostOp_goesOn (s := s.hostTurn) hbusy (hends op hmem) fun hc => hcalm hc op hmem
    refine ⟨t.advance, ?_, h.advance⟩
    rw [step_of_fetch hdue hfetch, e, andThen_next]

theorem run_succ_of_next (n : Nat) (e : step s = .next t) : Host.Core.run core (n + 1) s = Host.Core.run core n t := by
  have e' : core.step s = .next t := e
  simp only [Host.Core.run, e']

/-- R119, D15: finitely many steps complete a computation that the rest of the host's program does not end. -/
theorem run_completes (hbusy : s.crcBusy = true) (hends : ∀ op ∈ s.remaining, op.engineEffect s.params ≠ .ends)
    (hcalm : calm → ∀ op ∈ s.remaining, op.engineEffect s.params = .leaves) :
    ∃ n t, Host.Core.run core n s = .next t ∧ Completed calm s t := by
  induction hk : s.engineWait using Nat.strong_induction_on generalizing s with
  | _ k ih =>
    cases hdue : s.engineDue with
    | true => exact ⟨1, _, run_succ_of_next 0 (step_of_due hdue), completed_crcComplete calm s⟩
    | false =>
      have hpos := engineWait_pos_of_not_due hbusy hdue
      obtain ⟨t, e, hrun | hdone⟩ := step_goesOn hbusy hdue hends hcalm
      · have hsub := remaining_subset_of_step e
        have hparams : t.params = s.params := hrun.params
        have hlt : t.engineWait < k := hk ▸ Nat.lt_of_le_of_lt hrun.wait (Nat.sub_lt hpos Nat.one_pos)
        obtain ⟨n, v, hv, hdone⟩ := ih _ hlt hrun.busy (fun op hop => hparams ▸ hends op (hsub hop))
          (fun hc op hop => hparams ▸ hcalm hc op (hsub hop)) rfl
        exact ⟨n + 1, v, (run_succ_of_next n e).trans hv, { hrun.completed hdone with }⟩
      · exact ⟨1, t, run_succ_of_next 0 e, { hdone with }⟩

/-- Settles O44, by induction on the time the engine still waits (`run_completes`). -/
theorem startedEngineCompletes : Obligations.StartedEngineCompletes := by
  intro s hbusy hends
  obtain ⟨n, t, hrun, hdone⟩ :=
    run_completes (calm := ∀ op ∈ s.remaining, op.engineEffect s.params = .leaves) hbusy hends id
  exact ⟨n, t, hrun, hdone.idle, hdone.written, fun hc => ⟨hdone.flag hc, hdone.value hc⟩⟩

end Sys2Proof.Machine
end

section
/-!
The host protocol CRC16 (41_crc_engine.md R116, R117): frame by frame from an idle engine to the checksum or the timeout.
-/

namespace Sys2Proof.Machine

/-! What an outcome comes to. -/

/-- The outcome is a next state that has `P`. -/
def CompletesIn (P : State → Prop) (o : StepOutcome) : Prop := ∃ t, o = .next t ∧ P t

variable {P Q : State → Prop}

theorem CompletesIn.andThen {o : StepOutcome} {f : State → StepOutcome} (ho : CompletesIn P o)
    (hf : ∀ s, P s → CompletesIn Q (f s)) : CompletesIn Q (andThen o f) := by
  obtain ⟨s, rfl, hs⟩ := ho
  exact hf s hs

/-- R41, R47: before a further frame of the same host operation the engine may move. -/
theorem CompletesIn.thenFrame {o : StepOutcome} {f : State → StepOutcome} (ho : CompletesIn P o)
    (hf : ∀ s, P s → CompletesIn Q (f s.betweenFrames)) : CompletesIn Q (thenFrame o f) :=
  ho.andThen hf

/-! The stages of R116. `p` are the parameters, `data` the bytes the FIFO was given and `r` the result before. -/

/-- R116 steps 1 to 3: the engine is idle, the flag clear, and the FIFO holds `data`. -/
structure Loaded (p : Config.Parameters) (data : List Byte) (r : Option (BitVec 16)) (s : State) : Prop where
  params : s.params = p
  idle : s.crcBusy = false
  flag : s.crcIrq = false
  fifo : s.fifo = data
  ovfl : s.bufOvfl = false
  result : s.crcResult = r

/-- R116 steps 4 and 5: the engine computes the checksum of `data`. -/
structure Computing (p : Config.Parameters) (data : List Byte) (r : Option (BitVec 16)) (s : State) : Prop where
  params : s.params = p
  busy : s.crcBusy = true
  clean : s.crcPoison = false
  flag : s.crcIrq = false
  fifo : s.fifo = data
  ovfl : s.bufOvfl = false
  result : s.crcResult = r

/-- R114, R117: the engine is idle again and the result is the checksum of `data`. -/
structure Computed (p : Config.Parameters) (data : List Byte) (s : State) : Prop where
  params : s.params = p
  idle : s.crcBusy = false
  flag : s.crcIrq = true
  fifo : s.fifo = []
  ovfl : s.bufOvfl = false
  result : s.crcResult = some (crcOf p.crcFn data)
  cmd : s.cmd = p.cmdIdle

variable {p : Config.Parameters} {data : List Byte} {r : Option (BitVec 16)} {s : State}

theorem Loaded.betweenFrames (h : Loaded p data r s) : Loaded p data r s.betweenFrames := by
  rw [betweenFrames_idle s h.idle]
  exact { h with }

theorem Computed.betweenFrames (h : Computed p data s) : Computed p data s.betweenFrames := by
  rw [betweenFrames_idle s h.idle]
  exact { h with }

/-- R114: the completion of the computation, under `CRC_SELF_TERMINATES`. -/
theorem Computing.crcComplete (hterm : p.crcSelfTerminates = true) (h : Computing p data r s) :
    Computed p data s.crcComplete where
  params := h.params
  idle := rfl
  flag := rfl
  fifo := completionFifo_of_drained h.clean (h.params ▸ hterm)
  ovfl := h.ovfl
  result := by rw [State.crcComplete_crcResult, completionResult_of_not_poisoned h.clean, h.params, h.fifo]
  cmd := by rw [State.crcComplete_cmd, h.params, if_pos hterm]

/-- R47: between two frames the computation goes on or completes. -/
theorem Computing.betweenFrames (hterm : p.crcSelfTerminates = true) (h : Computing p data r s) :
    Computing p data r s.betweenFrames ∨ Computed p data s.betweenFrames := by
  rcases betweenFrames_cases s with ⟨-, e⟩ | ⟨-, e⟩ <;> rw [e]
  · exact .inr { h.crcComplete hterm with }
  · exact .inl { h with }

/-! Steps 1 to 4 (R116). -/

/-- U8: under `SET2` a consistent CRC bit is not the selecting bit 7. -/
theorem crcMask_bit7_of_set2 (hp : p.consistent = true) (hrule : p.divIrqWriteRule = .set2) :
    p.divIrqCrcMask.getLsbD 7 = false := by
  have hne : p.divIrqCrcBit ≠ 7 := by
    simp only [Config.Parameters.consistent, hrule, Bool.and_eq_true] at hp
    obtain ⟨-, hbit⟩ := hp
    simpa using hbit
  rw [Config.Parameters.divIrqCrcMask, bitMask_getLsbD _ _ (by decide), decide_eq_false_iff_not]
  exact fun e => hne (Fin.ext e.symm)

/-- R84, U8: under `SET2` a write of the CRC mask clears the flag. -/
theorem crcIrqAfterWrite_mask_of_set2 (hp : p.consistent = true) (hrule : p.divIrqWriteRule = .set2) (irq : Bool) :
    crcIrqAfterWrite p p.divIrqCrcMask irq = false := by
  have hself : p.divIrqCrcMask.getLsbD p.divIrqCrcBit = true := bitMask_self _
  simp only [crcIrqAfterWrite_eq, hrule, hself, if_true, crcMask_bit7_of_set2 hp hrule]

/-- R116 step 1: the flag is clear afterwards, whatever the write rule. -/
theorem crc16ClearFlag_completes (hp : s.params.consistent = true) (hidle : s.crcBusy = false) :
    CompletesIn (fun t => t.params = s.params ∧ t.crcBusy = false ∧ t.crcIrq = false ∧ t.crcResult = s.crcResult)
      (crc16ClearFlag s) := by
  unfold crc16ClearFlag
  cases hrule : s.params.divIrqWriteRule with
  | w0c =>
    obtain ⟨t, e, hirq, ⟨-, -, -, -, hparams⟩, hkept⟩ :=
      clrBitsClearsTheDoneFlag 0x00 s.params.divIrqCrcMask s hrule (bitMask_self _)
    obtain ⟨-, hresult, -, -, hbusy, -⟩ := hkept hidle
    exact ⟨t, e, hparams, hbusy, hirq, hresult⟩
  | set2 =>
    exact ⟨_, rfl, rfl, hidle, crcIrqAfterWrite_mask_of_set2 hp hrule s.crcIrq, rfl⟩

/-- R116 step 2, R90: the flush leaves an empty FIFO. -/
theorem crc16Flush_completes (hidle : s.crcBusy = false) (hirq : s.crcIrq = false) :
    CompletesIn (Loaded s.params [] s.crcResult) (execSetBits Config.addrFifoLevelReg 0x00 s.params.fifoFlushMask s) := by
  obtain ⟨t, e, hfifo, hovfl, ⟨-, -, -, -, hparams⟩, hkept⟩ :=
    setBitsFlushesTheFifo 0x00 s.params.fifoFlushMask s (bitMask_self _)
  obtain ⟨hbusy, -, -, hirq', hresult⟩ := hkept hidle
  exact ⟨t, e, hparams, hbusy, hirq'.trans hirq, hfifo, hovfl, hresult⟩

/-- R88: a byte written to a FIFO that has room for it. -/
theorem Loaded.writeByte (h : Loaded p data r s) (hroom : data.length < p.fifoCapacity) (b : Byte) :
    CompletesIn (Loaded p (data ++ [b]) r) (memWrite Config.addrFifoDataReg b s) := by
  obtain ⟨t, e, -, happend, -, -, hirq, hresult, hbusy, -, -, -, -, hparams⟩ := fifoDataWriteAppends b s
  obtain ⟨hfifo, hovfl⟩ := happend (by rw [h.fifo, h.params]; exact Nat.ne_of_lt hroom)
  exact ⟨t, e, hparams.trans h.params, hbusy.trans h.idle, hirq.trans h.flag, by rw [hfifo, h.fifo],
    hovfl.trans h.ovfl, hresult.trans h.result⟩

/-- R116 step 3, R21: the bytes stand in the FIFO in the order of writing. -/
theorem crc16WriteData_completes (rest : List Byte) {o : StepOutcome} (ho : CompletesIn (Loaded p data r) o)
    (hroom : data.length + rest.length ≤ p.fifoCapacity) :
    CompletesIn (Loaded p (data ++ rest) r) (crc16WriteData rest o) := by
  induction rest generalizing data o with
  | nil => rwa [List.append_nil]
  | cons b rest ih =>
    rw [List.length_cons] at hroom
    have hbyte := ho.thenFrame fun s h => h.betweenFrames.writeByte (by omega) b
    have hrest := ih hbyte (by rw [List.length_append, List.length_singleton]; omega)
    rwa [List.append_assoc, List.singleton_append] at hrest

/-- R113, R116 step 4: CRC-calculate starts the engine on a loaded FIFO. -/
theorem Loaded.start (hp : p.consistent = true) (h : Loaded p data r s) :
    CompletesIn (Computing p data r) (memWrite Config.addrCommandReg (commandByte p.cmdCalcCrc) s) := by
  obtain rfl := h.params
  have hidle : isCommand s.params s.params.cmdIdle (commandByte s.params.cmdCalcCrc) = false :=
    isCommand_of_ne fun e => cmdIdle_ne_cmdCalcCrc hp ((commandByte_inj _ _).1 e).symm
  have e := exec_wrCommandReg_of_calcCrc hidle (isCommand_commandByte_of_consistent hp).2
  exact ⟨_, e, rfl, rfl, rfl, h.flag, h.fifo, h.ovfl, h.result⟩

/-- R116 steps 1 to 4: the engine runs on the data. -/
theorem crc16Start_completes (hp : s.params.consistent = true) (hidle : s.crcBusy = false)
    (hroom : data.length ≤ s.params.fifoCapacity) :
    CompletesIn (Computing s.params data s.crcResult) (crc16Start data s) := by
  have hflushed := (crc16ClearFlag_completes hp hidle).thenFrame (Q := Loaded s.params [] s.crcResult)
    (f := execSetBits Config.addrFifoLevelReg 0x00 s.params.fifoFlushMask) fun t ⟨hparams, hbusy, hirq, hresult⟩ => by
      rw [betweenFrames_idle t hbusy, ← hparams, ← hresult]
      exact crc16Flush_completes (s := t.hostTurn) hbusy hirq
  have hloaded := crc16WriteData_completes data hflushed (by simpa using hroom)
  exact hloaded.thenFrame fun t h => h.betweenFrames.start hp

/-! Steps 5 to 8 (R116). -/

/-- What a POLL of the done flag hands over: it saw the completion, or the computation still runs. -/
def Polled (p : Config.Parameters) (data : List Byte) (r : Option (BitVec 16)) (s : State) : Prop :=
  (s.hostResult = .polled true ∧ Computed p data s) ∨ (s.hostResult = .polled false ∧ Computing p data r s)

/-- R69: the first read of a POLL sees a flag that is set. -/
theorem Computed.poll (h : Computed p data s) (n : Nat) :
    CompletesIn (Polled p data r) (poll Config.addrDivIrqReg p.divIrqCrcMask (n + 1) s) := by
  obtain rfl := h.params
  rw [poll_doneFlag_set h.flag]
  exact ⟨_, rfl, .inl ⟨rfl, { h with }⟩⟩

/-- R69, R116 step 5: a POLL of the done flag with at least one read, by induction on the reads. -/
theorem Computing.poll (hterm : p.crcSelfTerminates = true) (h : Computing p data r s) (n : Nat) :
    CompletesIn (Polled p data r) (poll Config.addrDivIrqReg p.divIrqCrcMask (n + 1) s) := by
  induction n generalizing s with
  | zero =>
    obtain rfl := h.params
    rw [poll_doneFlag_clear h.flag]
    exact ⟨_, rfl, .inr ⟨rfl, { h with }⟩⟩
  | succ n ih =>
    obtain rfl := h.params
    have hread : Computing s.params data r s.readDivIrq := { h with }
    rw [poll_doneFlag_clear h.flag]
    rcases hread.betweenFrames hterm with hrun | hdone
    · exact ih hrun
    · exact hdone.poll n

/-- R93, R95, R116 steps 7 and 8: the two bytes of the result are read, low byte first. -/
theorem Computed.readResult (h : Computed p data s) :
    CompletesIn (fun t => Computed p data t
        ∧ t.hostResult = .crc16 ((crcOf p.crcFn data).extractLsb' 0 8) ((crcOf p.crcFn data).extractLsb' 8 8))
      (crc16ReadResult s) := by
  have hlow : Computed p data (s.answer s.resultLowValue) := { h with }
  have hbetween := hlow.betweenFrames
  exact ⟨_, rfl, { hbetween with },
    congrArg₂ HostResult.crc16 (resultLowValue_of_some h.result) (resultHighValue_of_some hbetween.result)⟩

/-- R117: what CRC16 comes to. -/
def Crc16Done (p : Config.Parameters) (data : List Byte) (r : Option (BitVec 16)) (s : State) : Prop :=
  (Computed p data s
      ∧ s.hostResult = .crc16 ((crcOf p.crcFn data).extractLsb' 0 8) ((crcOf p.crcFn data).extractLsb' 8 8))
    ∨ (Computing p data r s ∧ s.hostResult = .protocolTimeout)

/-- R116 steps 6 to 8: the result is read if the poll saw the flag, else the host gives up. -/
theorem Polled.finish (h : Polled p data r s) : CompletesIn (Crc16Done p data r) (crc16Finish s) := by
  unfold crc16Finish
  rcases h with ⟨hseen, hdone⟩ | ⟨hmissed, hrun⟩
  · rw [if_pos hseen]
    obtain ⟨t, e, ht⟩ := hdone.betweenFrames.readResult
    exact ⟨t, e, .inl ht⟩
  · rw [if_neg (by simp [hmissed])]
    exact ⟨_, rfl, .inr ⟨{ hrun with }, rfl⟩⟩

/-- R117: CRC16 from an idle engine. -/
theorem crc16_completes (hp : s.params.consistent = true) (hidle : s.crcBusy = false)
    (hroom : data.length ≤ s.params.fifoCapacity) (hterm : s.params.crcSelfTerminates = true) :
    CompletesIn (Crc16Done s.params data s.crcResult) (crc16 data s) := by
  refine CompletesIn.andThen (P := Polled s.params data s.crcResult) ?_ fun _ h => h.finish
  refine (crc16Start_completes hp hidle hroom).thenFrame fun t h => ?_
  rcases h.betweenFrames hterm with hrun | hdone
  · exact hrun.poll hterm 254
  · exact hdone.poll 254

/-- Settles O42: the stages of R116 one after another (`crc16_completes`). -/
theorem crc16ReturnsTheChecksumOrTimesOut : Obligations.Crc16ReturnsTheChecksumOrTimesOut := by
  intro data s hp hidle hroom hterm
  obtain ⟨t, e, ⟨h, hresult⟩ | ⟨h, hresult⟩⟩ := crc16_completes hp hidle hroom hterm
  · exact ⟨t, e, .inl ⟨hresult, h.flag, h.idle, h.fifo, h.ovfl, h.result, h.cmd⟩⟩
  · exact ⟨t, e, .inr ⟨hresult, h.busy, h.flag, h.fifo, h.result⟩⟩

end Sys2Proof.Machine
end

section
/-!
The access-control codec (42_access_codec.md R131 to R139): the nibbles of the encoder's bytes, what the two operations return
bit by bit, and the codec's laws.
-/

namespace Sys2Proof.Machine

variable {order : Config.AccBitOrder} {v : BlocksAccess} {k : Nat} {c : AccessCode}

/-! R131: the three bit positions of a code. -/

/-- R131: where the three positions of a code stand, `hi` the bit of position 1 and `lo` that of position 3. -/
theorem codeBit_eq_getLsbD {hi lo : Nat}
    (h : (order = .c1High ∧ hi = 2 ∧ lo = 0) ∨ (order = .c1Low ∧ hi = 0 ∧ lo = 2)) (c : AccessCode) :
    codeBit order 1 c = c.getLsbD hi ∧ codeBit order 2 c = c.getLsbD 1 ∧ codeBit order 3 c = c.getLsbD lo := by
  obtain ⟨rfl, rfl, rfl⟩ | ⟨rfl, rfl, rfl⟩ := h <;> exact ⟨rfl, rfl, rfl⟩

/-- R131, R134: `blockCode` puts bit `k` of the three nibbles in the three positions. -/
theorem blockCode_getLsbD {hi lo : Nat}
    (h : (order = .c1High ∧ hi = 2 ∧ lo = 0) ∨ (order = .c1Low ∧ hi = 0 ∧ lo = 2)) (n1 n2 n3 : BitVec 4) (k : Nat) :
    (blockCode order n1 n2 n3 k).getLsbD hi = n1.getLsbD k ∧ (blockCode order n1 n2 n3 k).getLsbD 1 = n2.getLsbD k
      ∧ (blockCode order n1 n2 n3 k).getLsbD lo = n3.getLsbD k := by
  obtain ⟨rfl, rfl, rfl⟩ | ⟨rfl, rfl, rfl⟩ := h <;>
  · simp only [blockCode, BitVec.getLsbD_append]
    simp

/-- R131, R134: a code is what `blockCode` makes of its three positions. -/
theorem blockCode_eq_of_codeBit {n1 n2 n3 : BitVec 4} (h1 : n1.getLsbD k = codeBit order 1 c)
    (h2 : n2.getLsbD k = codeBit order 2 c) (h3 : n3.getLsbD k = codeBit order 3 c) :
    blockCode order n1 n2 n3 k = c := by
  unfold blockCode
  rw [h1, h2, h3]
  cases order <;> exact accessCode_bits c

/-! R133: the nibbles of the encoder's bytes, three plain and three complemented. -/

section

variable (order : Config.AccBitOrder) (v : BlocksAccess)

@[simp] theorem accEncode_byte0_low : (accEncode order v).byte0.extractLsb' 0 4 = ~~~positionBits order 1 v :=
  nibbleByte_low _ _

@[simp] theorem accEncode_byte0_high : (accEncode order v).byte0.extractLsb' 4 4 = ~~~positionBits order 2 v :=
  nibbleByte_high _ _

@[simp] theorem accEncode_byte1_low : (accEncode order v).byte1.extractLsb' 0 4 = ~~~positionBits order 3 v :=
  nibbleByte_low _ _

@[simp] theorem accEncode_byte1_high : (accEncode order v).byte1.extractLsb' 4 4 = positionBits order 1 v :=
  nibbleByte_high _ _

@[simp] theorem accEncode_byte2_low : (accEncode order v).byte2.extractLsb' 0 4 = positionBits order 2 v :=
  nibbleByte_low _ _

@[simp] theorem accEncode_byte2_high : (accEncode order v).byte2.extractLsb' 4 4 = positionBits order 3 v :=
  nibbleByte_high _ _

theorem accEncode_byte3 : (accEncode order v).byte3
    = (accEncode order v).byte0 ^^^ (accEncode order v).byte1 ^^^ (accEncode order v).byte2 := rfl

end

/-! R135: the laws. -/

/-- R132, R134: block k's code comes back from the three nibbles `bits(p)`. -/
theorem blockCode_positionBits (hk : (k, c) ∈ [(0, v.b0), (1, v.b1), (2, v.b2), (3, v.b3)]) :
    blockCode order (positionBits order 1 v) (positionBits order 2 v) (positionBits order 3 v) k = c :=
  blockCode_eq_of_codeBit (positionBits_bit _ _ _ _ _ hk) (positionBits_bit _ _ _ _ _ hk)
    (positionBits_bit _ _ _ _ _ hk)

/-- R135 (a): the decoder reads the three plain nibbles of the encoder's word. -/
theorem accDecode_accEncode (order : Config.AccBitOrder) (v : BlocksAccess) :
    accDecode order (accEncode order v) = v := by
  simp only [accDecode, accEncode_byte1_high, accEncode_byte2_low, accEncode_byte2_high]
  congr 1 <;> exact blockCode_positionBits (by simp)

/-- R135 (c). -/
theorem accEncode_injective (order : Config.AccBitOrder) : Function.Injective (accEncode order) :=
  Function.LeftInverse.injective (accDecode_accEncode order)

/-- R135 (e): the words that survive decoding and encoding again are the encoder's outputs. -/
theorem accEncode_accDecode_eq_iff (order : Config.AccBitOrder) (y : AccessBytes) :
    accEncode order (accDecode order y) = y ↔ ∃ v, y = accEncode order v := by
  constructor
  · exact fun h => ⟨_, h.symm⟩
  · rintro ⟨v, rfl⟩
    rw [accDecode_accEncode]

/-- Settles O39: the round trip (`accDecode_accEncode`) gives (a), (c) and (e), the encoder's nibbles give (d). -/
theorem codecLaws : Obligations.CodecLaws := fun order =>
  ⟨accDecode_accEncode order, accEncode_byte3 order, fun _ _ h => accEncode_injective order h,
    fun v => by simp, accEncode_accDecode_eq_iff order⟩

/-! R68: the bits of the result words. -/

theorem packBytes_getLsbD (y : AccessBytes) (hk : k < 8) :
    (packBytes y).getLsbD k = y.byte0.getLsbD k ∧ (packBytes y).getLsbD (8 + k) = y.byte1.getLsbD k
      ∧ (packBytes y).getLsbD (16 + k) = y.byte2.getLsbD k ∧ (packBytes y).getLsbD (24 + k) = y.byte3.getLsbD k := by
  simp only [packBytes, BitVec.getLsbD_append]
  refine ⟨?_, ?_, ?_, ?_⟩ <;> grind

theorem packCodes_getLsbD (hk : (k, c) ∈ [(0, v.b0), (1, v.b1), (2, v.b2), (3, v.b3)]) {j : Nat} (hj : j < 3) :
    (packCodes v).getLsbD (3 * k + j) = c.getLsbD j := by
  simp only [packCodes, BitVec.getLsbD_append]
  simp only [List.mem_cons, Prod.mk.injEq, List.not_mem_nil, or_false] at hk
  rcases hk with ⟨rfl, rfl⟩ | ⟨rfl, rfl⟩ | ⟨rfl, rfl⟩ | ⟨rfl, rfl⟩ <;> grind

theorem packCodes_getLsbD_of_le (v : BlocksAccess) {j : Nat} (hj : 12 ≤ j) : (packCodes v).getLsbD j = false := by
  simp only [packCodes, BitVec.getLsbD_append]
  grind

theorem blockIndex_lt_four (hk : (k, c) ∈ [(0, v.b0), (1, v.b1), (2, v.b2), (3, v.b3)]) : k < 4 := by
  simp only [List.mem_cons, Prod.mk.injEq, List.not_mem_nil, or_false] at hk
  omega

/-- R133, R138: each nibble of bytes 0 to 2 holds one position of every code, plain or complemented. -/
theorem accEncode_getLsbD (order : Config.AccBitOrder)
    (hk : (k, c) ∈ [(0, v.b0), (1, v.b1), (2, v.b2), (3, v.b3)]) :
    ((accEncode order v).byte0.getLsbD k = !codeBit order 1 c)
      ∧ ((accEncode order v).byte0.getLsbD (4 + k) = !codeBit order 2 c)
      ∧ ((accEncode order v).byte1.getLsbD k = !codeBit order 3 c)
      ∧ (accEncode order v).byte1.getLsbD (4 + k) = codeBit order 1 c
      ∧ (accEncode order v).byte2.getLsbD k = codeBit order 2 c
      ∧ (accEncode order v).byte2.getLsbD (4 + k) = codeBit order 3 c := by
  have hlt := blockIndex_lt_four hk
  have hbit := fun p => positionBits_bit order p v k c hk
  simp only [accEncode, nibbleByte_bits _ _ k hlt, BitVec.getLsbD_not, hbit, hlt, decide_true, Bool.true_and,
    and_self]

/-- R139, the bits of a code named by their positions (R131). -/
theorem packBytes_accEncode_getLsbD (order : Config.AccBitOrder)
    (hk : (k, c) ∈ [(0, v.b0), (1, v.b1), (2, v.b2), (3, v.b3)]) :
    ((packBytes (accEncode order v)).getLsbD k = !codeBit order 1 c)
      ∧ ((packBytes (accEncode order v)).getLsbD (4 + k) = !codeBit order 2 c)
      ∧ ((packBytes (accEncode order v)).getLsbD (8 + k) = !codeBit order 3 c)
      ∧ (packBytes (accEncode order v)).getLsbD (12 + k) = codeBit order 1 c
      ∧ (packBytes (accEncode order v)).getLsbD (16 + k) = codeBit order 2 c
      ∧ (packBytes (accEncode order v)).getLsbD (20 + k) = codeBit order 3 c
      ∧ (packBytes (accEncode order v)).getLsbD (24 + k)
        = ((!codeBit order 1 c) ^^ (!codeBit order 3 c) ^^ codeBit order 2 c)
      ∧ (packBytes (accEncode order v)).getLsbD (28 + k)
        = ((!codeBit order 2 c) ^^ codeBit order 1 c ^^ codeBit order 3 c) := by
  have hlt := blockIndex_lt_four hk
  have hlow := packBytes_getLsbD (accEncode order v) (k := k) (by omega)
  have hhigh := packBytes_getLsbD (accEncode order v) (k := 4 + k) (by omega)
  simp only [← Nat.add_assoc, Nat.reduceAdd] at hhigh
  simp [hlow, hhigh, accEncode_byte3, accEncode_getLsbD order hk]

/-- R134, R68: the decoder's codes stand three bits apart. -/
theorem packCodes_accDecode_getLsbD (order : Config.AccBitOrder) (y : AccessBytes) (hk : k < 4) {j : Nat} (hj : j < 3) :
    (packCodes (accDecode order y)).getLsbD (3 * k + j)
      = (blockCode order (y.byte1.extractLsb' 4 4) (y.byte2.extractLsb' 0 4) (y.byte2.extractLsb' 4 4) k).getLsbD j :=
  packCodes_getLsbD (by unfold accDecode; interval_cases k <;> simp) hj

/-! The two operations. -/

theorem exec_accEnc (b0 b1 b2 b3 : AccessCode) (x : BitVec 20) (s : State) :
    exec (.accEnc b0 b1 b2 b3 x) s
      = .next (s.setCodecOut (packBytes (accEncode s.params.accBitOrder ⟨b0, b1, b2, b3⟩))) := rfl

theorem exec_accDec (p q r y : Byte) (s : State) :
    exec (.accDec p q r y) s
      = .next (s.setCodecOut (packCodes (accDecode s.params.accBitOrder ⟨p, q, r, y⟩))) := rfl

/-- R130: handing a word to the host leaves the block as it is. -/
theorem SameBlock.setCodecOut (s : State) (w : BitVec 32) : SameBlock s (s.setCodecOut w) := .refl s

/-- Settles O37: the table by positions (`packBytes_accEncode_getLsbD`), each position then read in the code. -/
theorem accEncBitMap : Obligations.AccEncBitMap := by
  intro b0 b1 b2 b3 x s
  refine ⟨_, exec_accEnc b0 b1 b2 b3 x s, .setCodecOut s _, rfl, rfl, rfl, rfl, rfl, ?_⟩
  intro hi lo horder k c hk
  obtain ⟨h1, h2, h3⟩ := codeBit_eq_getLsbD horder c
  simpa only [State.setCodecOut_codecOut, h1, h2, h3] using
    packBytes_accEncode_getLsbD (v := ⟨b0, b1, b2, b3⟩) s.params.accBitOrder hk

/-- Settles O38: the decoder's codes, three bits apart (`packCodes_accDecode_getLsbD`), each bit one of a nibble
(`blockCode_getLsbD`). -/
theorem accDecBitMap : Obligations.AccDecBitMap := by
  intro p q r y s
  refine ⟨_, exec_accDec p q r y s, .setCodecOut s _, rfl, rfl, rfl, rfl, rfl, ?_, ?_⟩
  · intro hi lo horder k hk
    have hbit := fun {j : Nat} => packCodes_accDecode_getLsbD (j := j) s.params.accBitOrder ⟨p, q, r, y⟩ hk
    have hcode := blockCode_getLsbD horder (q.extractLsb' 4 4) (r.extractLsb' 0 4) (r.extractLsb' 4 4) k
    rw [State.setCodecOut_codecOut, hbit (by omega), hbit (by omega), hbit (by omega)]
    simpa only [BitVec.getLsbD_extractLsb', hk, decide_true, Bool.true_and, Nat.zero_add] using hcode
  · exact fun j hj => packCodes_getLsbD_of_le _ hj

/-- Settles O57: neither result names the state but for its parameters, nor the ignored bits (`exec_accEnc`, `exec_accDec`). -/
theorem codecReadsNoState : Obligations.CodecReadsNoState := by
  intro b0 b1 b2 b3 x x' p q r y s s' hp
  refine ⟨⟨_, _, exec_accEnc b0 b1 b2 b3 x s, exec_accEnc b0 b1 b2 b3 x' s', ?_⟩,
    ⟨_, _, exec_accDec p q r y s, exec_accDec p q r y s', ?_⟩⟩ <;> simp [hp]

end Sys2Proof.Machine
end

section
/-!
No step faults (60_exceptions.md R140): no frame does, and what is made of frames faults only where a frame does.
-/

namespace Sys2Proof.Machine

/-- R140: the outcome is no fault; the operation completes or is refused. -/
def FaultFree (o : StepOutcome) : Prop := ∀ f, o ≠ .fault f

theorem FaultFree.next (s : State) : FaultFree (.next s) := nofun

theorem FaultFree.refused (r : Refusal) : FaultFree (.refused r) := nofun

theorem FaultFree.of_completes {o : StepOutcome} (h : ∃ t, o = .next t) : FaultFree o := by
  obtain ⟨t, rfl⟩ := h
  exact .next t

/-- A sequence of fault-free parts is fault-free. -/
theorem FaultFree.andThen {o : StepOutcome} {f : State → StepOutcome} (ho : FaultFree o) (hf : ∀ s, FaultFree (f s)) :
    FaultFree (andThen o f) := by
  intro r h
  obtain h | ⟨s, -, h⟩ := (andThen_eq_fault _ _ _).1 h
  · exact ho r h
  · exact hf s r h

theorem FaultFree.thenFrame {o : StepOutcome} {f : State → StepOutcome} (ho : FaultFree o) (hf : ∀ s, FaultFree (f s)) :
    FaultFree (thenFrame o f) :=
  ho.andThen fun s => hf s.betweenFrames

/-! Single frames. Those that need not complete are writes of CommandReg, frames to other addresses and reserved frames. -/

theorem execWrOos_faultFree (a : RegAddr) (d : Byte) (s : State) : FaultFree (execWrOos a d s) := by
  unfold execWrOos
  split
  · exact .next _
  · exact .refused _
  · exact .refused _

theorem execRdOos_faultFree (a : RegAddr) (x : Byte) (s : State) : FaultFree (execRdOos a x s) := by
  unfold execRdOos
  split
  · exact .next _
  · exact .refused _
  · exact .refused _

theorem execWrCommandReg_faultFree (d : Byte) (s : State) : FaultFree (execWrCommandReg d s) := by
  rw [execWrCommandReg_eq]
  split_ifs
  · exact .next _
  · exact .next _
  · exact .refused _

/-- R81, R97: a read frame completes at a named register and is RD.OOS at an unnamed one. -/
theorem readRegister_faultFree (a : RegAddr) (x : Byte) (s : State) : FaultFree (readRegister a x s) := by
  by_cases h : addrClass a = .unnamed
  · rw [readRegister_of_not_inScope (isInScope_of_unnamed h)]
    exact execRdOos_faultFree a x s
  · exact .of_completes (readRegister_completes h x s)

/-- R82 to R96: beside CommandReg a write frame completes at a named register and is WR.OOS at an unnamed one. -/
theorem memWrite_faultFree (a : RegAddr) (d : Byte) (s : State) : FaultFree (memWrite a d s) := by
  by_cases hcmd : a = Config.addrCommandReg
  · subst hcmd
    exact execWrCommandReg_faultFree d s
  · by_cases h : addrClass a = .unnamed
    · rw [memWrite_of_not_inScope (isInScope_of_unnamed h)]
      exact execWrOos_faultFree a d s
    · exact .of_completes (memWrite_completes h hcmd d s)

/-! The operations of the opcode table, and of a host program. -/

theorem readThenWrite_faultFree (f : Byte → Byte) (a : RegAddr) (x : Byte) (s : State) :
    FaultFree (readThenWrite f a x s) :=
  (readRegister_faultFree a x s).andThen fun _ => memWrite_faultFree _ _ _

theorem exec_faultFree (i : Instr) (s : State) : FaultFree (exec i s) := by
  cases i with
  | wrCommandReg d => exact execWrCommandReg_faultFree d s
  | wrFifoLevelReg d => exact .of_completes (exec_wrFifoLevelReg_completes d s)
  | wrOos a d => exact execWrOos_faultFree a d s
  | rdOos a x => exact execRdOos_faultFree a x s
  | rsvdFrame rd a d => exact .refused _
  | setBits a x mask => exact readThenWrite_faultFree (· ||| mask) a x s
  | clrBits a x mask => exact readThenWrite_faultFree (· &&& ~~~mask) a x s
  | _ => exact .next _

theorem poll_faultFree (a : RegAddr) (mask : Byte) (n : Nat) : ∀ s, FaultFree (poll a mask n s) := by
  induction n with
  | zero => exact fun s => .next _
  | succ n ih =>
    refine fun s => (readRegister_faultFree a 0x00 s).andThen fun s1 => ?_
    split_ifs
    · exact .next _
    · exact ih _
    · exact ih _

theorem crc16WriteData_faultFree (data : List Byte) : ∀ o, FaultFree o → FaultFree (crc16WriteData data o) := by
  induction data with
  | nil => exact fun _ ho => ho
  | cons b rest ih => exact fun _ ho => ih _ (ho.thenFrame (memWrite_faultFree _ b))

theorem crc16ClearFlag_faultFree (s : State) : FaultFree (crc16ClearFlag s) := by
  unfold crc16ClearFlag
  split
  · exact exec_faultFree (.clrBits _ _ _) s
  · exact memWrite_faultFree _ _ s

theorem crc16Start_faultFree (data : List Byte) (s : State) : FaultFree (crc16Start data s) :=
  (crc16WriteData_faultFree data _
    ((crc16ClearFlag_faultFree s).thenFrame fun u => exec_faultFree (.setBits _ _ _) u)).thenFrame
    (memWrite_faultFree _ _)

theorem crc16Finish_faultFree (s : State) : FaultFree (crc16Finish s) := by
  unfold crc16Finish
  split_ifs
  · exact (readRegister_faultFree _ _ _).andThen fun _ => (readRegister_faultFree _ _ _).andThen fun _ => .next _
  · exact .next _

/-- R142: the timeout of CRC16 is a value the host is handed, no fault. -/
theorem crc16_faultFree (data : List Byte) (s : State) : FaultFree (crc16 data s) :=
  ((crc16Start_faultFree data s).thenFrame (poll_faultFree _ _ _)).andThen crc16Finish_faultFree

theorem runTransaction_faultFree (t : Transaction) (s : State) : FaultFree (runTransaction t s) := by
  unfold runTransaction
  split
  · exact exec_faultFree _ s
  · exact .refused _

theorem runHostOp_faultFree (op : HostOp) (s : State) : FaultFree (runHostOp op s) := by
  cases op with
  | transact t => exact runTransaction_faultFree t s
  | poll a mask n => exact poll_faultFree a mask n s
  | crc16 data => exact crc16_faultFree data s
  | reset => exact .next _
  | foreign t => exact .refused _

theorem hostStep_faultFree (s : State) : FaultFree (hostStep s) := by
  unfold hostStep
  split
  · exact .next _
  · exact (runHostOp_faultFree _ s).andThen fun _ => .next _

/-- Settles O48: a step is the completion or an operation of the host, and neither faults (`hostStep_faultFree`). -/
theorem noStepFaults : Obligations.NoStepFaults := by
  intro s
  unfold step
  split_ifs
  · exact FaultFree.next s.crcComplete
  · exact hostStep_faultFree s.hostTurn

end Sys2Proof.Machine
end

section
/-!
The done flag under single frames (60_exceptions.md R144, 10_state.md R26).
-/

namespace Sys2Proof.Machine

/-- R26: of the effects one frame can have, only that of a write of DivIrqReg touches the done flag. -/
theorem FrameEffect.crcIrq_cases {s t : State} {i : Instr} (h : FrameEffect s t i) :
    t.crcIrq = s.crcIrq ∨ ∃ d, i = .wrDivIrqReg d ∧ t.crcIrq = crcIrqAfterWrite s.params d s.crcIrq := by
  cases h with
  | unchanged _ h | idle _ _ h | calcCrc _ _ h | pop _ h | flush _ _ h =>
    obtain ⟨-, hirq, -⟩ := h
    exact .inl hirq
  | divIrq d h =>
    obtain ⟨-, hirq, -⟩ := h
    exact .inr ⟨d, rfl, hirq⟩
  | push d h =>
    obtain ⟨-, hirq, -⟩ := h
    exact .inl (hirq.trans (State.pushByte_crcIrq s.poisonIfBusy d))

/-- Settles O52: a frame leaves the done flag or is a write of DivIrqReg (`FrameEffect.crcIrq_cases`), which under the
default rule keeps the flag exactly where the written byte has a 1 (`crcIrqAfterWrite_eq`). -/
theorem doneFlagIsSetByCompletionOnly : Obligations.DoneFlagIsSetByCompletionOnly := by
  refine ⟨fun i s t hrule hi e => ?_, fun s => ⟨rfl, rfl⟩⟩
  obtain hirq | ⟨d, rfl, hirq⟩ := (exec_frameEffect hi e).crcIrq_cases
  · refine ⟨fun ht => hirq.symm.trans ht, fun hs ht => ?_⟩
    rw [hirq, hs] at ht
    cases ht
  · rw [crcIrqAfterWrite_eq, hrule] at hirq
    refine ⟨fun ht => ?_, fun hs ht => ⟨d, rfl, ?_⟩⟩
    · exact (Bool.and_eq_true_iff.1 (hirq.symm.trans ht)).1
    · simpa only [hs, Bool.true_and] using hirq.symm.trans ht

end Sys2Proof.Machine
end
